-- ==== Sys2Proof/Word.lean ====
section
/-! DEFINITION. The machine's words: bytes, and the widths the spec names (00_scope.md R8, R10, R11). -/

namespace Sys2Proof

/-- A byte is 8 bits, bit 7 the most significant (00_scope.md R10). -/
abbrev Byte := BitVec 8

/-- A byte sequence, offset 0 first: the byte that arrived first (00_scope.md R12). -/
abbrev Bytes := List Byte

/-- A packet or byte counter: `CNT_W` = 64 bits, unsigned, wrapping (00_scope.md R8; 44_stats.md R203). -/
abbrev Counter := BitVec 64

/-- An opaque time value: `TIME_W` = 64 bits (00_scope.md R8; 10_state.md R29). -/
abbrev Time := BitVec 64

/-- An opaque remote address key: `ADDR_W` = 64 bits (00_scope.md R8; 10_state.md R29). -/
abbrev AddrKey := BitVec 64

end Sys2Proof
end

