-- ==== Sys2Proof/Config.lean ====
section
/-! DEFINITION. The constants the document fixes (00_scope.md R7), the values `State.reset` takes for the
parameters and the input it leaves open (R8; logs 1, 2, 3), the constants derived from them (R9), and the one
value the spec does not state (log 16). -/

namespace Sys2Proof.Config

/-- `MAGIC`: the frame magic number, bytes `30 31 63 64` on the wire (00_scope.md R7). -/
def magic : BitVec 32 := 0x30316364#32

/-- `HDR_LEN`: bytes of fixed header (00_scope.md R7). -/
@[simp] abbrev hdrLen : Nat := 34

/-- `OFF_LEN`: offset of the 16-bit payload-length field (00_scope.md R7). -/
@[simp] abbrev offLen : Nat := 32

/-- `BCD_LEN`: bytes of device identifier (00_scope.md R7). -/
@[simp] abbrev bcdLen : Nat := 6

/-- `NCONN` of `State.reset`: the spec's open parameter, at the test vectors' value (00_scope.md R8).
DESIGN CHOICE 2 (log 1), unsafe. Every operation takes the number of contexts from the state itself. -/
def nconn : Nat := 2

/-- `BUF_CAP` of `State.reset`, in bytes: the parameter's default (00_scope.md R8). DESIGN CHOICE (log 2), unsafe.
Every operation takes the capacity from the state itself. -/
def defaultBufCap : Nat := 131104

/-- The value on `host_time` when the reset that `State.reset` stands for is released (10_state.md R33).
DESIGN CHOICE 0 (log 3), unsafe: the value is the host's. -/
def resetTime : Time := 0#64

/-- `MAX_PAYLOAD` (00_scope.md R9). -/
def maxPayload : Nat := 65535

/-- `MAX_FRAME` (00_scope.md R9). -/
def maxFrame : Nat := hdrLen + maxPayload

/-- `MAX_RESIDUE`: the most bytes a buffer holds when a `FEED` ends (00_scope.md R9; 43_framer.md R183). -/
def maxResidue : Nat := maxFrame - 1

/-- The most data bytes `withFetchWord` places with a word: `MAX_CHUNK` at the default capacity (log 10). -/
def placeLimit : Nat := defaultBufCap - maxResidue

/-- FREE VALUE, as a function of the length: what the 32-bit `info` of a `COND` record holds for a length of 2^32 or
more, which a buffer without a bound, or with one of 2^32 bytes or more, can reach (43_framer.md R174;
30_encoding.md R112). DESIGN CHOICE (log 16): the spec states no value. -/
opaque wideInfo : Nat → BitVec 32

end Sys2Proof.Config
end

