-- ==== Sys2Proof/Syntax.lean ====
section
/-! DEFINITION. The syntax of FRP's inputs: one constructor of `Instr` per row of spec/opcode_table.json,
22 commands and the frame header row, with exactly the operand bits each one uses (30_encoding.md R90, R107).
Bits that R107 calls ignored are no part of an instruction; `cid` is, for every command, because the response
echoes it (R114). -/

namespace Sys2Proof

/-- The reason operand of `CLOSE`, `arg[0]` (43_framer.md R181). -/
inductive CloseReason where
  /-- 0: transport EOF, condition `ConnectionClosed`. -/
  | eof
  /-- 1: read error, condition `ConnectionError`. -/
  | err
  deriving DecidableEq, Repr

/-- The 34-byte fixed header of a frame, field by field in wire order, the bits that are not decoded among
them (30_encoding.md R90, R92, R93, R94, R96). -/
structure FrameHeader where
  /-- Bytes 0 to 3. -/
  magic : BitVec 32
  /-- Byte 4 bits 7:6. -/
  rtpVersion : BitVec 2
  /-- Byte 4 bit 5. -/
  rtpPadding : BitVec 1
  /-- Byte 4 bit 4. -/
  rtpExtension : BitVec 1
  /-- Byte 4 bits 3:0. -/
  csrcCount : BitVec 4
  /-- Byte 5 bit 7. -/
  marker : BitVec 1
  /-- Byte 5 bits 6:0. -/
  payloadType : BitVec 7
  /-- Bytes 6 and 7. -/
  sequence : BitVec 16
  /-- Bytes 8 to 11, not decoded. -/
  reserved : BitVec 32
  /-- Bytes 12 to 17, byte 12 most significant. -/
  deviceIdRaw : BitVec 48
  /-- Byte 18. -/
  channel : BitVec 8
  /-- Byte 19 bits 7:6, not decoded. -/
  undecoded : BitVec 2
  /-- Byte 19 bits 5:4. -/
  subpackage : BitVec 2
  /-- Byte 19 bits 3:0. -/
  dataType : BitVec 4
  /-- Bytes 20 to 27. -/
  timestampMs : BitVec 64
  /-- Bytes 28 and 29. -/
  lastIFrameIntervalMs : BitVec 16
  /-- Bytes 30 and 31. -/
  lastFrameIntervalMs : BitVec 16
  /-- Bytes 32 and 33: the declared length `N`. -/
  declaredPayloadLength : BitVec 16
  deriving DecidableEq, Repr

/-- One constructor per row of spec/opcode_table.json (LAWS.json maps each to its mnemonic). -/
inductive Instr where
  /-- `NOP` (44_stats.md R207). -/
  | nop (cid : Byte)
  /-- `OPEN` (43_framer.md R170). -/
  | openConn (cid : Byte) (addrKey : AddrKey)
  /-- `FEED`; its `len` bytes follow on data-in (43_framer.md R171). -/
  | feed (cid : Byte) (len : BitVec 32)
  /-- `CLOSE` (43_framer.md R181). -/
  | closeConn (cid : Byte) (reason : CloseReason)
  /-- `DECODE`; its `len` bytes follow on data-in (42_decode.md R156). -/
  | decode (cid : Byte) (len : BitVec 32)
  /-- `BCD6` on six bytes, the first in bits 47:40 (40_bcd.md R133). -/
  | bcd6 (cid : Byte) (bytes : BitVec 48)
  /-- `UNPK.RTP0` (41_unpack.md R141). -/
  | unpkRtp0 (cid : Byte) (byte : Byte)
  /-- `UNPK.RTP1` (41_unpack.md R142). -/
  | unpkRtp1 (cid : Byte) (byte : Byte)
  /-- `UNPK.DT` (41_unpack.md R143). -/
  | unpkDt (cid : Byte) (byte : Byte)
  /-- `RDSTAT.START_TIME` (44_stats.md R280). -/
  | rdstatStartTime (cid : Byte)
  /-- `RDSTAT.TOTAL_PKTS` (44_stats.md R281). -/
  | rdstatTotalPkts (cid : Byte)
  /-- `RDSTAT.TOTAL_BYTES` (44_stats.md R282). -/
  | rdstatTotalBytes (cid : Byte)
  /-- `RDSTAT.IFRAME_CNT` (44_stats.md R283). -/
  | rdstatIframeCnt (cid : Byte)
  /-- `RDSTAT.PFRAME_CNT` (44_stats.md R284). -/
  | rdstatPframeCnt (cid : Byte)
  /-- `RDSTAT.CONN_STATUS` (44_stats.md R285). -/
  | rdstatConnStatus (cid : Byte)
  /-- `RDSTAT.BUF_LEN` (44_stats.md R286). -/
  | rdstatBufLen (cid : Byte)
  /-- `RDSTAT.PKT_CNT` (44_stats.md R287). -/
  | rdstatPktCnt (cid : Byte)
  /-- `RDSTAT.BYTE_CNT` (44_stats.md R288). -/
  | rdstatByteCnt (cid : Byte)
  /-- `RDSTAT.DEV_ID` (44_stats.md R289). -/
  | rdstatDevId (cid : Byte)
  /-- `RDSTAT.CHANNEL` (44_stats.md R290). -/
  | rdstatChannel (cid : Byte)
  /-- `RDSTAT.ADDR_KEY` (44_stats.md R291). -/
  | rdstatAddrKey (cid : Byte)
  /-- `RDSTAT.CONN_TS` (44_stats.md R292). -/
  | rdstatConnTs (cid : Byte)
  /-- `FRAME_HDR`: the wire pattern of a frame header, not a command (30_encoding.md R90; 42_decode.md R153).
  DESIGN CHOICE (log 7): as an input of its own it stands for `DECODE` of exactly these 34 bytes. -/
  | frameHdr (hdr : FrameHeader)
  deriving DecidableEq, Repr

/-- A word as it is handed to FRP, before it is decoded: the two formats of spec/opcode_table.json. -/
inductive InputWord where
  /-- Format `CMD80`: a command word `CW` (30_encoding.md R105). -/
  | cmd80 (cw : BitVec 80)
  /-- Format `WIRE34`: 34 bytes, byte 0 most significant, bit 7 of each byte first (30_encoding.md R90). -/
  | wire34 (w : BitVec 272)
  deriving DecidableEq, Repr

end Sys2Proof
end

