-- ==== Sys2Proof/WellFormed.lean ====
section
/-! DEFINITION. Which instructions can be written as words at all. Every operand of a command has exactly the
width of its field and every value of it is accepted (30_encoding.md R107, R108), so the one check is the frame
header's magic number (30_encoding.md R90, R98). -/

namespace Sys2Proof

/-- A frame header is a header only with the magic number in bytes 0 to 3 (30_encoding.md R90, R98). -/
def FrameHeader.wellFormed (h : FrameHeader) : Bool := h.magic == Config.magic

/-- Well-formedness, constructor by constructor. -/
def Instr.wellFormed : Instr → Bool
  | .nop _ => true
  | .openConn _ _ => true
  | .feed _ _ => true
  | .closeConn _ _ => true
  | .decode _ _ => true
  | .bcd6 _ _ => true
  | .unpkRtp0 _ _ => true
  | .unpkRtp1 _ _ => true
  | .unpkDt _ _ => true
  | .rdstatStartTime _ => true
  | .rdstatTotalPkts _ => true
  | .rdstatTotalBytes _ => true
  | .rdstatIframeCnt _ => true
  | .rdstatPframeCnt _ => true
  | .rdstatConnStatus _ => true
  | .rdstatBufLen _ => true
  | .rdstatPktCnt _ => true
  | .rdstatByteCnt _ => true
  | .rdstatDevId _ => true
  | .rdstatChannel _ => true
  | .rdstatAddrKey _ => true
  | .rdstatConnTs _ => true
  | .frameHdr h => h.wellFormed

end Sys2Proof
end

