-- ==== Sys2Proof/Decode.lean ====
section
/-! DEFINITION. The decoder of FRP's input words, total and rejecting by name, and the encoder beside it; both
written from 30_encoding.md (R90 to R94, R105 to R108) and spec/opcode_table.json. -/

namespace Sys2Proof

/-! ## Bit fields and byte order -/

/-- The field `v[lo+len-1 : lo]` (00_scope.md R10). -/
def bits {n : Nat} (v : BitVec n) (lo len : Nat) : BitVec len := v.extractLsb' lo len

/-- The `k` low bytes of `v`, most significant byte first (30_encoding.md R91, R101: `be16`, `be64`). -/
def bigEndian {n : Nat} (k : Nat) (v : BitVec n) : Bytes :=
  (List.range k).map fun i => bits v (8 * (k - 1 - i)) 8

/-! ## Operation codes and selectors -/

/-- The `op` codes (30_encoding.md R106). -/
def opNop : Byte := 0x00#8
/-- `OPEN` (30_encoding.md R106). -/
def opOpen : Byte := 0x01#8
/-- `FEED` (30_encoding.md R106). -/
def opFeed : Byte := 0x02#8
/-- `CLOSE` (30_encoding.md R106). -/
def opClose : Byte := 0x03#8
/-- `DECODE` (30_encoding.md R106). -/
def opDecode : Byte := 0x04#8
/-- `BCD6` (30_encoding.md R106). -/
def opBcd6 : Byte := 0x05#8
/-- `UNPK.*` (30_encoding.md R106). -/
def opUnpk : Byte := 0x06#8
/-- `RDSTAT.*` (30_encoding.md R106). -/
def opRdstat : Byte := 0x07#8

/-! ## Decoding -/

/-- Why an input word is no instruction. -/
inductive DecodeError where
  /-- `op` in 0x08 to 0xFF: reserved (30_encoding.md R108 (a)). -/
  | illegalOp (op cid : Byte)
  /-- `UNPK` with layout 3, or `RDSTAT` with an unlisted selector (30_encoding.md R108 (b), (c)). -/
  | badOperand (op cid : Byte)
  /-- 34 bytes that do not begin with the magic number are no frame header (30_encoding.md R98). -/
  | badMagic (w : BitVec 272)
  deriving DecidableEq, Repr

/-- The layouts of `op` = 0x06, by `arg[9:8]` (30_encoding.md R106; 41_unpack.md R144). -/
def decodeUnpk (cid : Byte) (arg : BitVec 64) : Except DecodeError Instr :=
  match (bits arg 8 2).toNat with
  | 0 => .ok (.unpkRtp0 cid (bits arg 0 8))
  | 1 => .ok (.unpkRtp1 cid (bits arg 0 8))
  | 2 => .ok (.unpkDt cid (bits arg 0 8))
  | _ => .error (.badOperand opUnpk cid)

/-- The selectors of `op` = 0x07, by `arg[7:0]` (44_stats.md R206). -/
def decodeRdstat (cid : Byte) (arg : BitVec 64) : Except DecodeError Instr :=
  match (bits arg 0 8).toNat with
  | 0x00 => .ok (.rdstatStartTime cid)
  | 0x01 => .ok (.rdstatTotalPkts cid)
  | 0x02 => .ok (.rdstatTotalBytes cid)
  | 0x03 => .ok (.rdstatIframeCnt cid)
  | 0x04 => .ok (.rdstatPframeCnt cid)
  | 0x10 => .ok (.rdstatConnStatus cid)
  | 0x11 => .ok (.rdstatBufLen cid)
  | 0x12 => .ok (.rdstatPktCnt cid)
  | 0x13 => .ok (.rdstatByteCnt cid)
  | 0x14 => .ok (.rdstatDevId cid)
  | 0x15 => .ok (.rdstatChannel cid)
  | 0x16 => .ok (.rdstatAddrKey cid)
  | 0x17 => .ok (.rdstatConnTs cid)
  | _ => .error (.badOperand opRdstat cid)

/-- The reason bit of `CLOSE` (43_framer.md R181). -/
def decodeReason (b : BitVec 1) : CloseReason := if b = 0#1 then .eof else .err

/-- A command word: `op` = `CW[79:72]`, `cid` = `CW[71:64]`, `arg` = `CW[63:0]` (30_encoding.md R105 to R108). -/
def decodeCommand (cw : BitVec 80) : Except DecodeError Instr :=
  let op := bits cw 72 8
  let cid := bits cw 64 8
  let arg := bits cw 0 64
  match op.toNat with
  | 0 => .ok (.nop cid)
  | 1 => .ok (.openConn cid arg)
  | 2 => .ok (.feed cid (bits arg 0 32))
  | 3 => .ok (.closeConn cid (decodeReason (bits arg 0 1)))
  | 4 => .ok (.decode cid (bits arg 0 32))
  | 5 => .ok (.bcd6 cid (bits arg 0 48))
  | 6 => decodeUnpk cid arg
  | 7 => decodeRdstat cid arg
  | _ => .error (.illegalOp op cid)

/-- The fields of 34 bytes read as one number, byte 0 most significant (30_encoding.md R90, R92 to R94). -/
def headerOfWord (w : BitVec 272) : FrameHeader where
  magic := bits w 240 32
  rtpVersion := bits w 238 2
  rtpPadding := bits w 237 1
  rtpExtension := bits w 236 1
  csrcCount := bits w 232 4
  marker := bits w 231 1
  payloadType := bits w 224 7
  sequence := bits w 208 16
  reserved := bits w 176 32
  deviceIdRaw := bits w 128 48
  channel := bits w 120 8
  undecoded := bits w 118 2
  subpackage := bits w 116 2
  dataType := bits w 112 4
  timestampMs := bits w 48 64
  lastIFrameIntervalMs := bits w 32 16
  lastFrameIntervalMs := bits w 16 16
  declaredPayloadLength := bits w 0 16

/-- 34 bytes are a header exactly when they begin with the magic number (30_encoding.md R98). -/
def decodeHeader (w : BitVec 272) : Except DecodeError Instr :=
  if bits w 240 32 = Config.magic then .ok (.frameHdr (headerOfWord w)) else .error (.badMagic w)

/-- The decoder. -/
def decode : InputWord → Except DecodeError Instr
  | .cmd80 cw => decodeCommand cw
  | .wire34 w => decodeHeader w

/-! ## Encoding -/

/-- A command word from its three fields (30_encoding.md R105). -/
def commandWord (op cid : Byte) (arg : BitVec 64) : BitVec 80 := op ++ cid ++ arg

/-- The bit of a reason (43_framer.md R181). -/
def encodeReason : CloseReason → BitVec 1
  | .eof => 0#1
  | .err => 1#1

/-- The 34 bytes of a header as one number, byte 0 most significant (30_encoding.md R90). -/
def headerWord (h : FrameHeader) : BitVec 272 :=
  h.magic ++ (h.rtpVersion ++ (h.rtpPadding ++ (h.rtpExtension ++ (h.csrcCount ++
  (h.marker ++ (h.payloadType ++ (h.sequence ++ (h.reserved ++ (h.deviceIdRaw ++
  (h.channel ++ (h.undecoded ++ (h.subpackage ++ (h.dataType ++ (h.timestampMs ++
  (h.lastIFrameIntervalMs ++ (h.lastFrameIntervalMs ++ h.declaredPayloadLength))))))))))))))))

/-- The 34 bytes of a header in wire order (30_encoding.md R90). -/
def headerBytes (h : FrameHeader) : Bytes := bigEndian 34 (headerWord h)

/-- The argument of an `UNPK`: layout in `arg[9:8]`, byte in `arg[7:0]` (30_encoding.md R107). -/
def unpkArg (layout : BitVec 2) (byte : Byte) : BitVec 64 := (layout ++ byte).setWidth 64

/-- The word of an instruction; unused fields are assembled as 0 (30_encoding.md R106, R107, R118). -/
def encode : Instr → InputWord
  | .nop cid => .cmd80 (commandWord opNop cid 0#64)
  | .openConn cid key => .cmd80 (commandWord opOpen cid key)
  | .feed cid len => .cmd80 (commandWord opFeed cid (len.setWidth 64))
  | .closeConn cid reason => .cmd80 (commandWord opClose cid ((encodeReason reason).setWidth 64))
  | .decode cid len => .cmd80 (commandWord opDecode cid (len.setWidth 64))
  | .bcd6 cid bytes => .cmd80 (commandWord opBcd6 cid (bytes.setWidth 64))
  | .unpkRtp0 cid byte => .cmd80 (commandWord opUnpk cid (unpkArg 0#2 byte))
  | .unpkRtp1 cid byte => .cmd80 (commandWord opUnpk cid (unpkArg 1#2 byte))
  | .unpkDt cid byte => .cmd80 (commandWord opUnpk cid (unpkArg 2#2 byte))
  | .rdstatStartTime cid => .cmd80 (commandWord opRdstat cid 0x00#64)
  | .rdstatTotalPkts cid => .cmd80 (commandWord opRdstat cid 0x01#64)
  | .rdstatTotalBytes cid => .cmd80 (commandWord opRdstat cid 0x02#64)
  | .rdstatIframeCnt cid => .cmd80 (commandWord opRdstat cid 0x03#64)
  | .rdstatPframeCnt cid => .cmd80 (commandWord opRdstat cid 0x04#64)
  | .rdstatConnStatus cid => .cmd80 (commandWord opRdstat cid 0x10#64)
  | .rdstatBufLen cid => .cmd80 (commandWord opRdstat cid 0x11#64)
  | .rdstatPktCnt cid => .cmd80 (commandWord opRdstat cid 0x12#64)
  | .rdstatByteCnt cid => .cmd80 (commandWord opRdstat cid 0x13#64)
  | .rdstatDevId cid => .cmd80 (commandWord opRdstat cid 0x14#64)
  | .rdstatChannel cid => .cmd80 (commandWord opRdstat cid 0x15#64)
  | .rdstatAddrKey cid => .cmd80 (commandWord opRdstat cid 0x16#64)
  | .rdstatConnTs cid => .cmd80 (commandWord opRdstat cid 0x17#64)
  | .frameHdr h => .wire34 (headerWord h)

/-! ## Building a frame -/

/-- `mkframe` (30_encoding.md R101): the wire bytes of a frame, its length field the payload's length. -/
def mkframe (f4 f5 : Byte) (seq : BitVec 16) (rsv : BitVec 32) (id : BitVec 48) (ch b19 : Byte)
    (ts : BitVec 64) (li lf : BitVec 16) (p : Bytes) : Bytes :=
  bigEndian 4 Config.magic ++ [f4] ++ [f5] ++ bigEndian 2 seq ++ bigEndian 4 rsv ++ bigEndian 6 id ++
  [ch] ++ [b19] ++ bigEndian 8 ts ++ bigEndian 2 li ++ bigEndian 2 lf ++
  bigEndian 2 (BitVec.ofNat 16 p.length) ++ p

/-! ## The opcode table -/

/-- One row of spec/opcode_table.json: a word of `nbits` bits is the row's when `w &&& mask = value`. -/
structure Row where
  /-- The row's mnemonic, letter for letter. -/
  mnemonic : String
  /-- The width of the row's format. -/
  nbits : Nat
  /-- The bits the row fixes. -/
  mask : Nat
  /-- The values it fixes them to. -/
  value : Nat
  deriving DecidableEq, Repr

/-- The rows of spec/opcode_table.json, in its order, `mask` and `match` as they stand there; for `FRAME_HDR`
the fixed bits of its pattern, read as one number with bit 0 the least significant (log 8). -/
def opcodeTable : List Row := [
  ⟨"NOP", 80, 0xFF000000000000000000, 0x00000000000000000000⟩,
  ⟨"OPEN", 80, 0xFF000000000000000000, 0x01000000000000000000⟩,
  ⟨"FEED", 80, 0xFF000000000000000000, 0x02000000000000000000⟩,
  ⟨"CLOSE", 80, 0xFF000000000000000000, 0x03000000000000000000⟩,
  ⟨"DECODE", 80, 0xFF000000000000000000, 0x04000000000000000000⟩,
  ⟨"BCD6", 80, 0xFF000000000000000000, 0x05000000000000000000⟩,
  ⟨"UNPK.RTP0", 80, 0xFF000000000000000300, 0x06000000000000000000⟩,
  ⟨"UNPK.RTP1", 80, 0xFF000000000000000300, 0x06000000000000000100⟩,
  ⟨"UNPK.DT", 80, 0xFF000000000000000300, 0x06000000000000000200⟩,
  ⟨"RDSTAT.START_TIME", 80, 0xFF0000000000000000FF, 0x07000000000000000000⟩,
  ⟨"RDSTAT.TOTAL_PKTS", 80, 0xFF0000000000000000FF, 0x07000000000000000001⟩,
  ⟨"RDSTAT.TOTAL_BYTES", 80, 0xFF0000000000000000FF, 0x07000000000000000002⟩,
  ⟨"RDSTAT.IFRAME_CNT", 80, 0xFF0000000000000000FF, 0x07000000000000000003⟩,
  ⟨"RDSTAT.PFRAME_CNT", 80, 0xFF0000000000000000FF, 0x07000000000000000004⟩,
  ⟨"RDSTAT.CONN_STATUS", 80, 0xFF0000000000000000FF, 0x07000000000000000010⟩,
  ⟨"RDSTAT.BUF_LEN", 80, 0xFF0000000000000000FF, 0x07000000000000000011⟩,
  ⟨"RDSTAT.PKT_CNT", 80, 0xFF0000000000000000FF, 0x07000000000000000012⟩,
  ⟨"RDSTAT.BYTE_CNT", 80, 0xFF0000000000000000FF, 0x07000000000000000013⟩,
  ⟨"RDSTAT.DEV_ID", 80, 0xFF0000000000000000FF, 0x07000000000000000014⟩,
  ⟨"RDSTAT.CHANNEL", 80, 0xFF0000000000000000FF, 0x07000000000000000015⟩,
  ⟨"RDSTAT.ADDR_KEY", 80, 0xFF0000000000000000FF, 0x07000000000000000016⟩,
  ⟨"RDSTAT.CONN_TS", 80, 0xFF0000000000000000FF, 0x07000000000000000017⟩,
  ⟨"FRAME_HDR", 272, 0xFFFFFFFF * 2 ^ 240, 0x30316364 * 2 ^ 240⟩]

/-- The mnemonic of an instruction's row. -/
def Instr.mnemonic : Instr → String
  | .nop _ => "NOP"
  | .openConn _ _ => "OPEN"
  | .feed _ _ => "FEED"
  | .closeConn _ _ => "CLOSE"
  | .decode _ _ => "DECODE"
  | .bcd6 _ _ => "BCD6"
  | .unpkRtp0 _ _ => "UNPK.RTP0"
  | .unpkRtp1 _ _ => "UNPK.RTP1"
  | .unpkDt _ _ => "UNPK.DT"
  | .rdstatStartTime _ => "RDSTAT.START_TIME"
  | .rdstatTotalPkts _ => "RDSTAT.TOTAL_PKTS"
  | .rdstatTotalBytes _ => "RDSTAT.TOTAL_BYTES"
  | .rdstatIframeCnt _ => "RDSTAT.IFRAME_CNT"
  | .rdstatPframeCnt _ => "RDSTAT.PFRAME_CNT"
  | .rdstatConnStatus _ => "RDSTAT.CONN_STATUS"
  | .rdstatBufLen _ => "RDSTAT.BUF_LEN"
  | .rdstatPktCnt _ => "RDSTAT.PKT_CNT"
  | .rdstatByteCnt _ => "RDSTAT.BYTE_CNT"
  | .rdstatDevId _ => "RDSTAT.DEV_ID"
  | .rdstatChannel _ => "RDSTAT.CHANNEL"
  | .rdstatAddrKey _ => "RDSTAT.ADDR_KEY"
  | .rdstatConnTs _ => "RDSTAT.CONN_TS"
  | .frameHdr _ => "FRAME_HDR"

/-- A word of the table as it is handed to FRP: 80-bit numbers are command words, 272-bit numbers the 34 header
bytes with byte 0 most significant (log 8); the table has no other width. -/
def tableInput (nbits w : Nat) : Option InputWord :=
  if nbits = 80 then some (.cmd80 (BitVec.ofNat 80 w))
  else if nbits = 272 then some (.wire34 (BitVec.ofNat 272 w))
  else none

/-- The instruction the decoder reads from a word of spec/opcode_table.json, `none` where it refuses. -/
def decodeTableWord (nbits w : Nat) : Option Instr :=
  match tableInput nbits w with
  | some input => (decode input).toOption
  | none => none

end Sys2Proof
end

