-- ==== Sys2Proof/Machine/State.lean ====
section
/-! DEFINITION. The state of FRP as plain data, its output records, its reset state, and the reasons a step
could stop (10_state.md; 30_encoding.md Part C; 60_exceptions.md R220). -/

namespace Sys2Proof.Machine

/-! ## Conditions and statuses -/

/-- The five conditions the document names, the only ones reported as `COND` records (60_exceptions.md R220;
30_encoding.md R112). -/
inductive Condition where
  | bufferTooShort
  | badMagic
  | payloadLengthMismatch
  | connectionClosed
  | connectionError
  deriving DecidableEq, Repr

/-- The statuses of a response (60_exceptions.md R220). -/
inductive Status where
  | ok
  | bufferTooShort
  | badMagic
  | payloadLengthMismatch
  | connectionClosed
  | connectionError
  | bufferOverflow
  | notOpen
  | alreadyOpen
  | illegalOp
  | badOperand
  deriving DecidableEq, Repr

/-! ## Output records -/

/-- A string of decimal digits as a record carries it: `devIdLen` and `devIdChars`, 24 bytes, ASCII codes
followed by zero bytes (30_encoding.md R111). -/
structure DigitString where
  /-- `devIdLen`. -/
  len : BitVec 5
  /-- `devIdChars`, 24 bytes. -/
  chars : Bytes
  deriving DecidableEq, Repr

/-- The decoded header fields of a `FRAME` record (30_encoding.md R110; 42_decode.md R153). -/
structure FrameFields where
  magic : BitVec 32
  rtpVersion : BitVec 2
  rtpPadding : BitVec 1
  rtpExtension : BitVec 1
  csrcCount : BitVec 4
  marker : BitVec 1
  payloadType : BitVec 7
  sequence : BitVec 16
  deviceId : DigitString
  channel : BitVec 8
  dataType : BitVec 4
  subpackage : BitVec 2
  timestampMs : BitVec 64
  lastIFrameIntervalMs : BitVec 16
  lastFrameIntervalMs : BitVec 16
  declaredPayloadLength : BitVec 16
  deriving DecidableEq, Repr

/-- An output record (30_encoding.md R109 to R114). -/
inductive Record where
  /-- `FRAME`, kind 0: `cid`, the decoded fields, `rawLen`, `raw` (R110). -/
  | frame (cid : Byte) (fields : FrameFields) (rawLen : BitVec 32) (raw : Bytes)
  /-- `COND`, kind 1 (R112). -/
  | cond (cid : Byte) (code : Condition) (info : BitVec 32)
  /-- `BCD`, kind 2 (R113). -/
  | bcd (str : DigitString)
  /-- `RSP`, kind 3: the last record of every command (R114). -/
  | rsp (op cid : Byte) (status : Status) (val : BitVec 64)
  deriving DecidableEq, Repr

/-! ## Connection contexts and statistics -/

/-- The per-connection state machine (10_state.md R24). -/
inductive Phase where
  /-- 0: no connection in this slot. -/
  | closed
  /-- 1: a connection is live, not in the middle of a frame or a resync. -/
  | connected
  /-- 2: inside a `FEED`, a slice is being decoded. -/
  | decoding
  /-- 3: inside a `FEED`, the buffer is being cleared. -/
  | resyncing
  deriving DecidableEq, Repr

/-- One connection context `C[c]` (10_state.md R23). -/
structure Context where
  /-- `phase`, 2 bits (R24). -/
  phase : Phase
  /-- `buf`: the raw unconsumed bytes, head first (R25). -/
  buf : Bytes
  /-- `pkt_cnt`, 64 bits (R26). -/
  pktCnt : Counter
  /-- `byte_cnt`, 64 bits (R26). -/
  byteCnt : Counter
  /-- `id_set`, 1 bit: the only flag FRP has (R27). -/
  idSet : Bool
  /-- `dev_id_raw`, 48 bits (R28). -/
  devIdRaw : BitVec 48
  /-- `chan`, 8 bits (R28). -/
  chan : Byte
  /-- `addr_key`, 64 bits, opaque (R29). -/
  addrKey : AddrKey
  /-- `conn_ts`, 64 bits, opaque (R29). -/
  connTs : Time
  deriving DecidableEq, Repr

/-- The reset value of a context, which is also "no entry" (10_state.md R23, R33; 43_framer.md R181). -/
def Context.reset : Context where
  phase := .closed
  buf := []
  pktCnt := 0#64
  byteCnt := 0#64
  idSet := false
  devIdRaw := 0#48
  chan := 0#8
  addrKey := 0#64
  connTs := 0#64

/-- The global statistics record `G` (10_state.md R30). -/
structure GlobalStats where
  /-- `start_time`, 64 bits, opaque. -/
  startTime : Time
  /-- `total_pkts`, 64 bits. -/
  totalPkts : Counter
  /-- `total_bytes`, 64 bits. -/
  totalBytes : Counter
  /-- `iframe_cnt`, 64 bits. -/
  iframeCnt : Counter
  /-- `pframe_cnt`, 64 bits. -/
  pframeCnt : Counter
  deriving DecidableEq, Repr

/-- The reset value of `G`: the counters 0, the start time the value on `host_time` (10_state.md R30, R33). -/
def GlobalStats.reset (t0 : Time) : GlobalStats where
  startTime := t0
  totalPkts := 0#64
  totalBytes := 0#64
  iframeCnt := 0#64
  pframeCnt := 0#64

/-! ## Inputs -/

/-- What the host does next (00_scope.md R5; 30_encoding.md R115, R118). -/
inductive HostEvent where
  /-- An input word is issued: a command word on the `cmd` channel, or a bare frame header (log 7). -/
  | word (w : InputWord)
  /-- `.time v`: the `host_time` port has the value `v` from here on. -/
  | time (v : Time)
  /-- `.reset`: `rst` is asserted and released. -/
  | reset
  deriving DecidableEq, Repr

/-! ## The state -/

/-- `BUF_CAP`, the capacity of each receive buffer: a number of bytes, or no bound (00_scope.md R8). -/
inductive Capacity where
  | bytes (n : Nat)
  | unbounded
  deriving DecidableEq, Repr

/-- The whole state: the architectural state `ctx`, `g` (10_state.md R20); because a step has no other
input or output, the port and the three channels of 30_encoding.md R115 (logs 4, 6); and the parameter `BUF_CAP`
(log 2), fixed when FRP is built (70_reset_and_hazards.md R253). `NCONN` is the length of `ctx` (log 1). -/
structure State where
  /-- `BUF_CAP`, which no step changes. -/
  bufCap : Capacity
  /-- `C[0]` to `C[NCONN-1]`. -/
  ctx : List Context
  /-- `G`. -/
  g : GlobalStats
  /-- The value now on the input port `host_time`. -/
  hostTime : Time
  /-- What the host does next, in order: the `cmd` channel and the events of the other ports. -/
  host : List HostEvent
  /-- The bytes on the data-in channel not yet taken. -/
  din : Bytes
  /-- The output records emitted so far, in order. -/
  out : List Record
  deriving DecidableEq, Repr

/-- The reset state of an FRP built with `n` contexts and buffers of capacity `cap`, whose reset is released with
`t0` on `host_time` (`reset(t0)` of 70_reset_and_hazards.md R250; 10_state.md R33; 00_scope.md R8). -/
def State.resetWith (n : Nat) (cap : Capacity) (t0 : Time) : State where
  bufCap := cap
  ctx := List.replicate n Context.reset
  g := GlobalStats.reset t0
  hostTime := t0
  host := []
  din := []
  out := []

/-- The machine right after reset (10_state.md R33), nothing queued on its channels. DESIGN CHOICE: two contexts
(log 1), the default capacity (log 2) and `host_time` = 0 (log 3), unsafe. -/
def State.reset : State := State.resetWith Config.nconn (.bytes Config.defaultBufCap) Config.resetTime

/-! ## Stops -/

/-- The faults of the machine: none. Every condition of FRP is a defined outcome with a defined next state
(60_exceptions.md R242), so no constructor exists and no step can fault; this is safe. -/
inductive Fault where
  deriving DecidableEq, Repr

/-- The refusals of the model. -/
inductive Refusal where
  /-- An instruction without a meaning, raised only by an arm of `exec`; no arm raises it. Safe: the model
  stops where the hardware goes on. -/
  | notModelled (mnemonic : String)
  deriving DecidableEq, Repr

/-- What executing an instruction or taking a step answers. -/
abbrev Result := Host.Outcome State Fault Refusal

end Sys2Proof.Machine
end

