-- ==== Sys2Proof/Machine/Operands.lean ====
section
/-! DEFINITION. The pure functions on operands: big-endian reading, the BCD decoder and the packed-bitfield
unpacker, with the value words and the names of their results (00_scope.md R12; 40_bcd.md; 41_unpack.md;
30_encoding.md R91 to R95, R111). -/

namespace Sys2Proof.Machine

/-! ## Reading a byte sequence -/

/-- A byte sequence as a big-endian number (00_scope.md R12). -/
def beNat (s : Bytes) : Nat := s.foldl (fun acc b => acc * 256 + b.toNat) 0

/-- `be(s, off, n)`, the big-endian integer of the `n` bytes at offset `off` (00_scope.md R12), which is also
`MemRead` on a buffer (R13). The spec defines it only when `off + n <= len(s)`, and every use in this model is
inside that domain (log 13). -/
def be (s : Bytes) (off n : Nat) : BitVec (8 * n) := BitVec.ofNat (8 * n) (beNat ((s.drop off).take n))

/-! ## BCD decoder -/

/-- The ASCII code of the decimal digit `k` (40_bcd.md R131). -/
def asciiDigit (k : Nat) : Byte := BitVec.ofNat 8 (0x30 + k)

/-- `dig` on a nibble: its decimal numeral, one character up to 9 and two from 10 (40_bcd.md R131). -/
def dig (n : BitVec 4) : Bytes :=
  if n.toNat ≤ 9 then [asciiDigit n.toNat] else [asciiDigit 1, asciiDigit (n.toNat - 10)]

/-- `bcd6` on six bytes, the first in bits 47:40: per byte the high nibble, then the low nibble (40_bcd.md R130). -/
def bcd6 (s : BitVec 48) : Bytes := (List.range 12).flatMap fun i => dig (bits s (44 - 4 * i) 4)

/-- How a record carries a string of at most 24 characters (30_encoding.md R111). -/
def carryDigits (s : Bytes) : DigitString where
  len := BitVec.ofNat 5 s.length
  chars := s ++ List.replicate (24 - s.length) 0#8

/-! ## Packed-bitfield unpacker -/

/-- The fields of header byte 4 (30_encoding.md R92). -/
structure Rtp0 where
  rtpVersion : BitVec 2
  rtpPadding : BitVec 1
  rtpExtension : BitVec 1
  csrcCount : BitVec 4
  deriving DecidableEq, Repr

/-- The fields of header byte 5 (30_encoding.md R93). -/
structure Rtp1 where
  marker : BitVec 1
  payloadType : BitVec 7
  deriving DecidableEq, Repr

/-- The fields of header byte 19 (30_encoding.md R94). -/
structure Dt where
  dataType : BitVec 4
  subpackage : BitVec 2
  deriving DecidableEq, Repr

/-- `unpk_rtp0` (41_unpack.md R141). -/
def unpkRtp0 (b : Byte) : Rtp0 := ⟨bits b 6 2, bits b 5 1, bits b 4 1, bits b 0 4⟩

/-- `unpk_rtp1` (41_unpack.md R142). -/
def unpkRtp1 (b : Byte) : Rtp1 := ⟨bits b 7 1, bits b 0 7⟩

/-- `unpk_dt`; bits 7:6 are dropped (41_unpack.md R143; 30_encoding.md R96). -/
def unpkDt (b : Byte) : Dt := ⟨bits b 0 4, bits b 4 2⟩

/-- `val` of `UNPK.RTP0`: the fields from the low byte up (41_unpack.md R141). -/
def rtp0Val (f : Rtp0) : BitVec 64 :=
  (f.csrcCount.setWidth 8 ++ (f.rtpExtension.setWidth 8 ++
    (f.rtpPadding.setWidth 8 ++ f.rtpVersion.setWidth 8))).setWidth 64

/-- `val` of `UNPK.RTP1` (41_unpack.md R142). -/
def rtp1Val (f : Rtp1) : BitVec 64 := (f.payloadType.setWidth 8 ++ f.marker.setWidth 8).setWidth 64

/-- `val` of `UNPK.DT` (41_unpack.md R143). -/
def dtVal (f : Dt) : BitVec 64 := (f.subpackage.setWidth 8 ++ f.dataType.setWidth 8).setWidth 64

/-! ## Names of field values -/

/-- The named values of `dataType`; an unknown value keeps its integer (30_encoding.md R95). -/
inductive DataTypeName where
  | iFrame
  | pFrame
  | bFrame
  | audio
  | transparent
  | unknown (v : BitVec 4)
  deriving DecidableEq, Repr

/-- The name of a `dataType` (30_encoding.md R95; 41_unpack.md R145). -/
def dataTypeName (v : BitVec 4) : DataTypeName :=
  match v.toNat with
  | 0 => .iFrame
  | 1 => .pFrame
  | 2 => .bFrame
  | 3 => .audio
  | 4 => .transparent
  | _ => .unknown v

/-- The named values of `subpackage`, all four (30_encoding.md R95). -/
inductive SubpackageName where
  | atomic
  | first
  | last
  | middle
  deriving DecidableEq, Repr

/-- The name of a `subpackage` (30_encoding.md R95). -/
def subpackageName (v : BitVec 2) : SubpackageName :=
  match v.toNat with
  | 0 => .atomic
  | 1 => .first
  | 2 => .last
  | _ => .middle

end Sys2Proof.Machine
end

