-- ==== Sys2Proof/Machine/Flags.lean ====
section
/-! DEFINITION. The one flag FRP has, `id_set` (10_state.md R27), with the sticky fields it guards and the status
word that shows it, and the numeric codes of phases, conditions, statuses and record kinds (10_state.md R24;
60_exceptions.md R220; 30_encoding.md R109). -/

namespace Sys2Proof.Machine

/-- The encoding of a phase (10_state.md R24). -/
def phaseCode : Phase → BitVec 2
  | .closed => 0#2
  | .connected => 1#2
  | .decoding => 2#2
  | .resyncing => 3#2

/-- The code of a condition (60_exceptions.md R220). -/
def conditionCode : Condition → BitVec 4
  | .bufferTooShort => 1#4
  | .badMagic => 2#4
  | .payloadLengthMismatch => 3#4
  | .connectionClosed => 4#4
  | .connectionError => 5#4

/-- The code of a status (60_exceptions.md R220). -/
def statusCode : Status → BitVec 4
  | .ok => 0#4
  | .bufferTooShort => 1#4
  | .badMagic => 2#4
  | .payloadLengthMismatch => 3#4
  | .connectionClosed => 4#4
  | .connectionError => 5#4
  | .bufferOverflow => 6#4
  | .notOpen => 7#4
  | .alreadyOpen => 8#4
  | .illegalOp => 9#4
  | .badOperand => 10#4

/-- The status with a condition's name and code (60_exceptions.md R220). -/
def conditionStatus : Condition → Status
  | .bufferTooShort => .bufferTooShort
  | .badMagic => .badMagic
  | .payloadLengthMismatch => .payloadLengthMismatch
  | .connectionClosed => .connectionClosed
  | .connectionError => .connectionError

/-- The kind code of a record (30_encoding.md R109). -/
def recordKind : Record → BitVec 2
  | .frame _ _ _ _ => 0#2
  | .cond _ _ _ => 1#2
  | .bcd _ => 2#2
  | .rsp _ _ _ _ => 3#2

/-- Recording the identity of a connection: only while `id_set = 0`, the two sticky fields together, and the
flag becomes 1 (10_state.md R27, R28; 44_stats.md R200, R201). -/
def recordIdentity (dev : BitVec 48) (chan : Byte) (c : Context) : Context :=
  if c.idSet then c else { c with devIdRaw := dev, chan := chan, idSet := true }

/-- The `CONN_STATUS` word: `val[1:0]` the phase, `val[2]` the flag `id_set` (44_stats.md R206, R285). -/
def connStatus (c : Context) : BitVec 64 := (BitVec.ofBool c.idSet ++ phaseCode c.phase).setWidth 64

end Sys2Proof.Machine
end

