-- ==== Sys2Proof/Machine/Ops.lean ====
section
/-! DEFINITION. The named operations every instruction is made of: reaching a context, the buffer primitives and
their capacity, taking input, responding, raising a condition and going on from it, the two per-frame actions, reset, and what
FRP does with a word that is no instruction. -/

namespace Sys2Proof.Machine

/-! ## Contexts -/

/-- `C[cid]`, absent when `cid >= NCONN` (10_state.md R20; 30_encoding.md R108 (d)). -/
def readContext (s : State) (cid : Byte) : Option Context := s.ctx[cid.toNat]?

/-- `C[cid] <- c`; no other context is touched (10_state.md R35). -/
def writeContext (s : State) (cid : Byte) (c : Context) : State := { s with ctx := s.ctx.set cid.toNat c }

/-! ## The buffer primitives (00_scope.md R13; 20_memory.md R66, R68, R69) -/

/-- `Append(c, s)`. -/
def appendBuf (chunk : Bytes) (c : Context) : Context := { c with buf := c.buf ++ chunk }

/-- `DropFront(c, n)`. -/
def dropFront (n : Nat) (c : Context) : Context := { c with buf := c.buf.drop n }

/-- `Clear(c)`. -/
def clearBuf (c : Context) : Context := { c with buf := [] }

/-- `C[c].phase <- p` (00_scope.md R13). -/
def setPhase (p : Phase) (c : Context) : Context := { c with phase := p }

/-! ## The capacity (00_scope.md R8, R9) -/

/-- `n <= BUF_CAP`: may a buffer hold `n` bytes? Without a bound it always may. -/
def Capacity.admits (cap : Capacity) (n : Nat) : Bool :=
  match cap with
  | .bytes k => decide (n ≤ k)
  | .unbounded => true

/-- The constraint on the parameter: `BUF_CAP >= 65569`, or no bound. -/
def Capacity.valid (cap : Capacity) : Bool := cap.admits Config.maxFrame

/-- `MAX_CHUNK = BUF_CAP - MAX_RESIDUE`: a chunk of at most this many bytes is never rejected for lack of room; none
where there is no bound. -/
def Capacity.maxChunk (cap : Capacity) : Option Nat :=
  match cap with
  | .bytes k => some (k - Config.maxResidue)
  | .unbounded => none

/-! ## Input and output -/

/-- The input word at the head of the queue has been carried out and is gone (30_encoding.md R104). -/
def retire (s : State) : State := { s with host := s.host.tail }

/-- `emit`, for a list of records in order (00_scope.md R13). -/
def emit (recs : List Record) (s : State) : State := { s with out := s.out ++ recs }

/-- The end of a command: its records, then exactly one `RSP` with `op` and `cid` echoed (30_encoding.md R109, R114). -/
def respond (s : State) (recs : List Record) (op cid : Byte) (status : Status) (val : BitVec 64) : Result :=
  .next (emit (recs ++ [.rsp op cid status val]) (retire s))

/-- `reject S`: no change of state, the only output is `RSP` with status `S` and `val = 0` (00_scope.md R13). -/
def reject (s : State) (op cid : Byte) (status : Status) : Result := respond s [] op cid status 0#64

/-- Takes exactly `len` bytes from data-in, whether the command is then carried out or rejected (30_encoding.md
R115). While fewer have arrived the command waits and nothing changes. DEDUCED (log 5), safe. -/
def takeDin (s : State) (len : BitVec 32) (k : Bytes → State → Result) : Result :=
  if s.din.length < len.toNat then .next s
  else k (s.din.take len.toNat) { s with din := s.din.drop len.toNat }

/-- `if cid >= NCONN: reject BadOperand` (60_exceptions.md R229). -/
def withContext (s : State) (op cid : Byte) (k : Context → Result) : Result :=
  match readContext s cid with
  | none => reject s op cid .badOperand
  | some c => k c

/-- `BadOperand`, then `if phase != CONNECTED: reject NotOpen` (60_exceptions.md R226, R229, R231). -/
def withOpenContext (s : State) (op cid : Byte) (k : Context → Result) : Result :=
  withContext s op cid fun c => if c.phase = .connected then k c else reject s op cid .notOpen

/-- `if n > BUF_CAP: reject BufferOverflow` (60_exceptions.md R225). -/
def withRoom (s : State) (op cid : Byte) (n : Nat) (k : Result) : Result :=
  if s.bufCap.admits n then k else reject s op cid .bufferOverflow

/-! ## Conditions -/

/-- A number of bytes as the 32-bit `info` of a `COND` record (30_encoding.md R112). One that does not fit is the
free value of log 16. -/
def condInfo (n : Nat) : BitVec 32 := if n < 2 ^ 32 then BitVec.ofNat 32 n else Config.wideInfo n

/-- Raising one of the five conditions: it appends one `COND` record; nothing is saved, masked or vectored
(60_exceptions.md R232; 30_encoding.md R112). -/
def raiseCond (cid : Byte) (cond : Condition) (info : Nat) (recs : List Record) : List Record :=
  recs ++ [.cond cid cond (condInfo info)]

/-- The state change tied to `BadMagic` in `FEED`: through `RESYNCING`, every buffered byte discarded
(43_framer.md R174; 60_exceptions.md R232). -/
def resync (c : Context) : Context := clearBuf (setPhase .resyncing c)

/-- Going on after a resync or a decoded slice: back in `CONNECTED` (60_exceptions.md R233; 43_framer.md R182). -/
def resume (c : Context) : Context := setPhase .connected c

/-! ## The per-frame actions -/

/-- `onFrame(c, frame, frameSize)` of the Connection Registry (44_stats.md R200). -/
def onFrame (dev : BitVec 48) (chan : Byte) (frameSize : Nat) (c : Context) : Context :=
  recordIdentity dev chan
    { c with pktCnt := c.pktCnt + 1#64, byteCnt := c.byteCnt + BitVec.ofNat 64 frameSize }

/-- `record(frame, frameSize)` of the Aggregator (44_stats.md R202). -/
def recordFrame (dataType : BitVec 4) (frameSize : Nat) (g : GlobalStats) : GlobalStats :=
  { g with
    totalPkts := g.totalPkts + 1#64
    totalBytes := g.totalBytes + BitVec.ofNat 64 frameSize
    iframeCnt := if dataType = 0#4 then g.iframeCnt + 1#64 else g.iframeCnt
    pframeCnt := if dataType = 1#4 then g.pframeCnt + 1#64 else g.pframeCnt }

/-! ## The host's events -/

/-- Reset: the architectural state of 10_state.md R33, with `start_time` the value on `host_time`; what is still
on the input channels is the host's, and records already emitted stay (70_reset_and_hazards.md R250 to R252). -/
def resetState (s : State) : State :=
  { s with ctx := List.replicate s.ctx.length Context.reset, g := GlobalStats.reset s.hostTime }

/-- `.time v` (30_encoding.md R118). -/
def setTime (v : Time) (s : State) : State := { s with hostTime := v }

/-- Between commands FRP is idle and holds all state (60_exceptions.md R240; log 11). -/
def idle (s : State) : Result := .next s

/-- A word that is no instruction: reserved codes are rejected and take nothing from data-in (30_encoding.md
R108; 60_exceptions.md R228, R229); 34 bytes without the magic number are what `DECODE` makes of them, `BadMagic`
(42_decode.md R152, R156; log 7). -/
def rejectWord (e : DecodeError) (s : State) : Result :=
  match e with
  | .illegalOp op cid => reject s op cid .illegalOp
  | .badOperand op cid => reject s op cid .badOperand
  | .badMagic _ => respond s (raiseCond 0#8 .badMagic 34 []) opDecode 0#8 .badMagic 0#64

/-! ## Placing a word where it is fetched -/

/-- The data bytes that go with a word placed by `withFetchWord`: LEN zero bytes for a `FEED` or `DECODE` (log 10). -/
def zeroOperands (input : InputWord) : Bytes :=
  match decode input with
  | .ok (.feed _ len) => if len.toNat ≤ Config.placeLimit then List.replicate len.toNat 0#8 else []
  | .ok (.decode _ len) => if len.toNat ≤ Config.placeLimit then List.replicate len.toNat 0#8 else []
  | _ => []

/-- Puts a word and its data at the head of the input channels. -/
def placeWord (s : State) (input : InputWord) : State :=
  { s with host := .word input :: s.host, din := zeroOperands input ++ s.din }

end Sys2Proof.Machine
end

