-- ==== Sys2Proof/Machine/Bcd.lean ====
section
/-! DEFINITION. The meaning of `BCD6` (40_bcd.md). -/

namespace Sys2Proof.Machine

/-- `BCD6` (40_bcd.md R133). -/
def execBcd6 (cid : Byte) (bytes : BitVec 48) (s : State) : Result :=
  respond s [.bcd (carryDigits (bcd6 bytes))] opBcd6 cid .ok (BitVec.ofNat 64 (bcd6 bytes).length)

end Sys2Proof.Machine
end

