-- ==== Sys2Proof/Machine/FrameDecoder.lean ====
section
/-! DEFINITION. The Frame Decoder and the meanings of `DECODE` and of a bare frame header (42_decode.md). -/

namespace Sys2Proof.Machine

/-- A decoded frame: its fields and the payload bytes actually present (42_decode.md R153, R154). -/
structure Frame where
  fields : FrameFields
  payload : Bytes
  deriving DecidableEq, Repr

/-- The three outcomes of `decode_frame` (42_decode.md R150). -/
inductive DecodeOutcome where
  /-- `Fail(BufferTooShort)` or `Fail(BadMagic)`. -/
  | fail (cond : Condition)
  /-- `Ok(frame, mismatch)`. -/
  | ok (frame : Frame) (mismatch : Bool)
  deriving DecidableEq, Repr

/-- The header fields at their fixed offsets, big-endian (42_decode.md R153; 30_encoding.md R90). -/
def headerFields (f : Bytes) : FrameFields where
  magic := be f 0 4
  rtpVersion := (unpkRtp0 (be f 4 1)).rtpVersion
  rtpPadding := (unpkRtp0 (be f 4 1)).rtpPadding
  rtpExtension := (unpkRtp0 (be f 4 1)).rtpExtension
  csrcCount := (unpkRtp0 (be f 4 1)).csrcCount
  marker := (unpkRtp1 (be f 5 1)).marker
  payloadType := (unpkRtp1 (be f 5 1)).payloadType
  sequence := be f 6 2
  deviceId := carryDigits (bcd6 (be f 12 6))
  channel := be f 18 1
  dataType := (unpkDt (be f 19 1)).dataType
  subpackage := (unpkDt (be f 19 1)).subpackage
  timestampMs := be f 20 8
  lastIFrameIntervalMs := be f 28 2
  lastFrameIntervalMs := be f 30 2
  declaredPayloadLength := be f 32 2

/-- `decode_frame`: the length check, then the magic check, then the fields and the payload length check
(42_decode.md R150 to R154). -/
def decodeFrame (f : Bytes) : DecodeOutcome :=
  if f.length < Config.hdrLen then .fail .bufferTooShort
  else if be f 0 4 ≠ Config.magic then .fail .badMagic
  else .ok ⟨headerFields f, f.drop Config.hdrLen⟩
    (f.length - Config.hdrLen != (headerFields f).declaredPayloadLength.toNat)

/-- The `FRAME` record of a decoded byte sequence: the fields, and the sequence itself as `raw` (30_encoding.md R110). -/
def frameRecord (cid : Byte) (frame : Frame) (f : Bytes) : Record :=
  .frame cid frame.fields (BitVec.ofNat 32 f.length) f

/-- The Frame Decoder on the bytes `f` of a `DECODE`, after they are taken (42_decode.md R156). -/
def decodeBytes (cid : Byte) (f : Bytes) (s : State) : Result :=
  withRoom s opDecode cid f.length <|
    match decodeFrame f with
    | .fail c => respond s (raiseCond cid c f.length []) opDecode cid (conditionStatus c) 0#64
    | .ok frame false => respond s [frameRecord cid frame f] opDecode cid .ok 1#64
    | .ok frame true =>
      respond s (raiseCond cid .payloadLengthMismatch (f.length - Config.hdrLen) [] ++ [frameRecord cid frame f])
        opDecode cid .payloadLengthMismatch 1#64

/-- `DECODE` (42_decode.md R156). -/
def execDecode (cid : Byte) (len : BitVec 32) (s : State) : Result :=
  takeDin s len fun f s => decodeBytes cid f s

/-- A bare frame header: `DECODE` of exactly its 34 bytes, `cid` assembled as 0 (42_decode.md R153, R156;
30_encoding.md R118). DESIGN CHOICE (log 7): the spec's row is not a command. -/
def execFrameHdr (hdr : FrameHeader) (s : State) : Result := decodeBytes 0#8 (headerBytes hdr) s

end Sys2Proof.Machine
end

