-- ==== Sys2Proof/Machine/Framer.lean ====
section
/-! DEFINITION. The Stream Framer: the meanings of `OPEN`, `FEED` and `CLOSE` and the extraction loop
(43_framer.md). -/

namespace Sys2Proof.Machine

/-- `OPEN` (43_framer.md R170). -/
def execOpen (cid : Byte) (addrKey : AddrKey) (s : State) : Result :=
  withContext s opOpen cid fun c =>
    if c.phase = .closed then
      respond (writeContext s cid
        { phase := .connected, buf := [], pktCnt := 0#64, byteCnt := 0#64, idSet := false,
          devIdRaw := 0#48, chan := 0#8, addrKey := addrKey, connTs := s.hostTime })
        [] opOpen cid .ok 0#64
    else reject s opOpen cid .alreadyOpen

/-- What one `FEED` works on: its context, the global statistics, the records emitted so far and `nframes`. -/
structure Pass where
  ctx : Context
  g : GlobalStats
  recs : List Record
  nframes : Nat
  deriving DecidableEq, Repr

/-- Decoding one slice that has left the buffer, and counting it (43_framer.md R177, R187; 44_stats.md R200, R202). -/
def deliverSlice (cid : Byte) (slice : Bytes) (p : Pass) : Pass :=
  match decodeFrame slice with
  | .ok frame mismatch =>
    { ctx := resume (onFrame (be slice 12 6) frame.fields.channel slice.length p.ctx)
      g := recordFrame frame.fields.dataType slice.length p.g
      recs := (if mismatch then raiseCond cid .payloadLengthMismatch (slice.length - Config.hdrLen) p.recs
        else p.recs) ++ [frameRecord cid frame slice]
      nframes := p.nframes + 1 }
  | .fail c => { p with ctx := resume p.ctx, recs := raiseCond cid c slice.length p.recs }

/-- The extraction loop, steps 1 to 5, for at most `fuel` passes (43_framer.md R171, R173 to R177). -/
def extract (cid : Byte) : Nat → Pass → Pass
  | 0, p => p
  | fuel + 1, p =>
    if p.ctx.buf.length < Config.hdrLen then p
    else if be p.ctx.buf 0 4 ≠ Config.magic then
      { p with ctx := resume (resync p.ctx), recs := raiseCond cid .badMagic p.ctx.buf.length p.recs }
    else
      let frameSize := Config.hdrLen + (be p.ctx.buf Config.offLen 2).toNat
      if p.ctx.buf.length < frameSize then p
      else extract cid fuel
        (deliverSlice cid (p.ctx.buf.take frameSize)
          { p with ctx := setPhase .decoding (dropFront frameSize p.ctx) })

/-- The most passes the loop can make on `n` buffered bytes (43_framer.md R178). -/
def passBound (n : Nat) : Nat := n / Config.hdrLen + 1

/-- `FEED` once its chunk is taken and may be appended: append, then extract (43_framer.md R171, R172). -/
def feedPass (cid : Byte) (chunk : Bytes) (c : Context) (g : GlobalStats) : Pass :=
  extract cid (passBound (c.buf.length + chunk.length)) ⟨appendBuf chunk c, g, [], 0⟩

/-- `FEED` (43_framer.md R171 to R180). -/
def execFeed (cid : Byte) (len : BitVec 32) (s : State) : Result :=
  takeDin s len fun chunk s =>
    withOpenContext s opFeed cid fun c =>
      withRoom s opFeed cid (c.buf.length + len.toNat) <|
        let p := feedPass cid chunk c s.g
        respond { writeContext s cid p.ctx with g := p.g } p.recs opFeed cid .ok (BitVec.ofNat 64 p.nframes)

/-- The condition a reason of `CLOSE` reports (43_framer.md R181; 60_exceptions.md R224). -/
def reasonCondition : CloseReason → Condition
  | .eof => .connectionClosed
  | .err => .connectionError

/-- `CLOSE` (43_framer.md R181). -/
def execClose (cid : Byte) (reason : CloseReason) (s : State) : Result :=
  withOpenContext s opClose cid fun c =>
    respond (writeContext s cid Context.reset) (raiseCond cid (reasonCondition reason) c.buf.length [])
      opClose cid .ok 0#64

end Sys2Proof.Machine
end

