-- ==== Sys2Proof/Machine/Stats.lean ====
section
/-! DEFINITION. The meanings of `NOP` and of the 13 `RDSTAT` commands (44_stats.md). -/

namespace Sys2Proof.Machine

/-- `NOP` (44_stats.md R207). -/
def execNop (cid : Byte) (s : State) : Result := respond s [] opNop cid .ok 0#64

/-- `RDSTAT` of a field of `G`; `cid` is ignored and echoed (44_stats.md R205). -/
def readGlobal (cid : Byte) (val : BitVec 64) (s : State) : Result := respond s [] opRdstat cid .ok val

/-- `RDSTAT` of a field of a context; a closed slot is no error (44_stats.md R205). -/
def readField (cid : Byte) (val : Context → BitVec 64) (s : State) : Result :=
  withContext s opRdstat cid fun c => respond s [] opRdstat cid .ok (val c)

/-- `RDSTAT.START_TIME` (44_stats.md R280). -/
def execRdstatStartTime (cid : Byte) (s : State) : Result := readGlobal cid s.g.startTime s

/-- `RDSTAT.TOTAL_PKTS` (44_stats.md R281). -/
def execRdstatTotalPkts (cid : Byte) (s : State) : Result := readGlobal cid s.g.totalPkts s

/-- `RDSTAT.TOTAL_BYTES` (44_stats.md R282). -/
def execRdstatTotalBytes (cid : Byte) (s : State) : Result := readGlobal cid s.g.totalBytes s

/-- `RDSTAT.IFRAME_CNT` (44_stats.md R283). -/
def execRdstatIframeCnt (cid : Byte) (s : State) : Result := readGlobal cid s.g.iframeCnt s

/-- `RDSTAT.PFRAME_CNT` (44_stats.md R284). -/
def execRdstatPframeCnt (cid : Byte) (s : State) : Result := readGlobal cid s.g.pframeCnt s

/-- `RDSTAT.CONN_STATUS` (44_stats.md R285). -/
def execRdstatConnStatus (cid : Byte) (s : State) : Result := readField cid connStatus s

/-- `RDSTAT.BUF_LEN` (44_stats.md R286). -/
def execRdstatBufLen (cid : Byte) (s : State) : Result :=
  readField cid (fun c => BitVec.ofNat 64 c.buf.length) s

/-- `RDSTAT.PKT_CNT` (44_stats.md R287). -/
def execRdstatPktCnt (cid : Byte) (s : State) : Result := readField cid (fun c => c.pktCnt) s

/-- `RDSTAT.BYTE_CNT` (44_stats.md R288). -/
def execRdstatByteCnt (cid : Byte) (s : State) : Result := readField cid (fun c => c.byteCnt) s

/-- `RDSTAT.DEV_ID` (44_stats.md R289). -/
def execRdstatDevId (cid : Byte) (s : State) : Result := readField cid (fun c => c.devIdRaw.setWidth 64) s

/-- `RDSTAT.CHANNEL` (44_stats.md R290). -/
def execRdstatChannel (cid : Byte) (s : State) : Result := readField cid (fun c => c.chan.setWidth 64) s

/-- `RDSTAT.ADDR_KEY` (44_stats.md R291). -/
def execRdstatAddrKey (cid : Byte) (s : State) : Result := readField cid (fun c => c.addrKey) s

/-- `RDSTAT.CONN_TS` (44_stats.md R292). -/
def execRdstatConnTs (cid : Byte) (s : State) : Result := readField cid (fun c => c.connTs) s

end Sys2Proof.Machine
end

