-- ==== Sys2Proof/Machine/Unpack.lean ====
section
/-! DEFINITION. The meanings of `UNPK.RTP0`, `UNPK.RTP1` and `UNPK.DT` (41_unpack.md). -/

namespace Sys2Proof.Machine

/-- `UNPK.RTP0` (41_unpack.md R141). -/
def execUnpkRtp0 (cid byte : Byte) (s : State) : Result :=
  respond s [] opUnpk cid .ok (rtp0Val (unpkRtp0 byte))

/-- `UNPK.RTP1` (41_unpack.md R142). -/
def execUnpkRtp1 (cid byte : Byte) (s : State) : Result :=
  respond s [] opUnpk cid .ok (rtp1Val (unpkRtp1 byte))

/-- `UNPK.DT` (41_unpack.md R143). -/
def execUnpkDt (cid byte : Byte) (s : State) : Result :=
  respond s [] opUnpk cid .ok (dtVal (unpkDt byte))

end Sys2Proof.Machine
end

