-- ==== Sys2Proof/Machine/Dispatch.lean ====
section
/-! DEFINITION. The meaning of every instruction: one arm per constructor of `Instr`. -/

namespace Sys2Proof.Machine

def exec (i : Instr) (s : State) : Host.Outcome State Fault Refusal :=
  match i with
  | .nop cid => Sys2Proof.Machine.execNop cid s
  | .openConn cid addrKey => Sys2Proof.Machine.execOpen cid addrKey s
  | .feed cid len => Sys2Proof.Machine.execFeed cid len s
  | .closeConn cid reason => Sys2Proof.Machine.execClose cid reason s
  | .decode cid len => Sys2Proof.Machine.execDecode cid len s
  | .bcd6 cid bytes => Sys2Proof.Machine.execBcd6 cid bytes s
  | .unpkRtp0 cid byte => Sys2Proof.Machine.execUnpkRtp0 cid byte s
  | .unpkRtp1 cid byte => Sys2Proof.Machine.execUnpkRtp1 cid byte s
  | .unpkDt cid byte => Sys2Proof.Machine.execUnpkDt cid byte s
  | .rdstatStartTime cid => Sys2Proof.Machine.execRdstatStartTime cid s
  | .rdstatTotalPkts cid => Sys2Proof.Machine.execRdstatTotalPkts cid s
  | .rdstatTotalBytes cid => Sys2Proof.Machine.execRdstatTotalBytes cid s
  | .rdstatIframeCnt cid => Sys2Proof.Machine.execRdstatIframeCnt cid s
  | .rdstatPframeCnt cid => Sys2Proof.Machine.execRdstatPframeCnt cid s
  | .rdstatConnStatus cid => Sys2Proof.Machine.execRdstatConnStatus cid s
  | .rdstatBufLen cid => Sys2Proof.Machine.execRdstatBufLen cid s
  | .rdstatPktCnt cid => Sys2Proof.Machine.execRdstatPktCnt cid s
  | .rdstatByteCnt cid => Sys2Proof.Machine.execRdstatByteCnt cid s
  | .rdstatDevId cid => Sys2Proof.Machine.execRdstatDevId cid s
  | .rdstatChannel cid => Sys2Proof.Machine.execRdstatChannel cid s
  | .rdstatAddrKey cid => Sys2Proof.Machine.execRdstatAddrKey cid s
  | .rdstatConnTs cid => Sys2Proof.Machine.execRdstatConnTs cid s
  | .frameHdr hdr => Sys2Proof.Machine.execFrameHdr hdr s

end Sys2Proof.Machine
end

