-- ==== Sys2Proof/Machine/Step.lean ====
section
/-! DEFINITION. One step: the host's next event, carried out whole (00_scope.md R6, R14; log 4). -/

namespace Sys2Proof.Machine

/-- One step. A word is decoded and its instruction executed, which removes it from the queue when it completes;
a word of no row is answered by name; the other events are reset and a new value on `host_time`; with nothing
queued FRP is idle. -/
def step (s : State) : Host.Outcome State Fault Refusal :=
  match s.host with
  | [] => idle s
  | .time v :: _ => .next (setTime v (retire s))
  | .reset :: _ => .next (resetState (retire s))
  | .word w :: _ =>
    match decode w with
    | .ok i => exec i s
    | .error e => rejectWord e s

/-- The state with the table's word `w` at the head of the input channels, so that the next step decodes and
runs exactly it; for `FEED` and `DECODE` its data bytes, zeros, stand at the head of data-in (logs 4, 10). -/
def State.withFetchWord (s : State) (nbits w : Nat) : State :=
  match tableInput nbits w with
  | some input => placeWord s input
  | none => s

end Sys2Proof.Machine
end

