-- ==== Sys2Proof/Machine/Assembler.lean ====
section
/-! DEFINITION. The assembler syntax of 30_encoding.md R118 and R119 as a type of lines, and what each line puts
on the input channels. FRP executes no stored program; these lines say what the host does. -/

namespace Sys2Proof.Machine

/-- One line (30_encoding.md R118, R119). -/
inductive AsmLine where
  | nop
  | openLine (cid : Byte) (addrKey : AddrKey)
  | feed (cid : Byte) (bytes : Bytes)
  | closeLine (cid : Byte) (reason : CloseReason)
  | decode (bytes : Bytes)
  | bcd6 (b0 b1 b2 b3 b4 b5 : Byte)
  | unpkRtp0 (byte : Byte)
  | unpkRtp1 (byte : Byte)
  | unpkDt (byte : Byte)
  /-- `RDSTAT.<name> [cid]`, by the selector of the name (44_stats.md R206). -/
  | rdstat (sel : Byte) (cid : Byte)
  /-- `.time v`. -/
  | time (v : Time)
  /-- `.reset`. -/
  | reset
  /-- `FEED1`: one `FEED` per byte. -/
  | feed1 (cid : Byte) (bytes : Bytes)
  /-- `FEEDS`: the bytes cut into chunks of the given sizes. -/
  | feeds (cid : Byte) (bytes : Bytes) (sizes : List Nat)
  deriving DecidableEq, Repr

/-- What a line or a program puts on the input channels: host events and data-in bytes, each in order. -/
structure Inputs where
  host : List HostEvent
  din : Bytes
  deriving DecidableEq, Repr

/-- The inputs of two parts one after the other. -/
def joinInputs (a b : Inputs) : Inputs := ⟨a.host ++ b.host, a.din ++ b.din⟩

/-- One command with its data bytes. -/
def command (i : Instr) (data : Bytes) : Inputs := ⟨[.word (encode i)], data⟩

/-- `FEED cid, <bytes>`: LEN is the number of bytes written (30_encoding.md R118). -/
def feedInputs (cid : Byte) (bytes : Bytes) : Inputs := command (.feed cid (BitVec.ofNat 32 bytes.length)) bytes

/-- The chunks of `FEEDS`: the first `k1` bytes, the next `k2`, and so on (30_encoding.md R119). -/
def cut (bytes : Bytes) : List Nat → List Bytes
  | [] => []
  | k :: ks => bytes.take k :: cut (bytes.drop k) ks

/-- One `FEED` per chunk, in order. -/
def feedChunks (cid : Byte) : List Bytes → Inputs
  | [] => ⟨[], []⟩
  | chunk :: rest => joinInputs (feedInputs cid chunk) (feedChunks cid rest)

/-- What a line assembles to; unused fields are 0 (30_encoding.md R118, R119). -/
def assembleLine : AsmLine → Inputs
  | .nop => command (.nop 0#8) []
  | .openLine cid key => command (.openConn cid key) []
  | .feed cid bytes => feedInputs cid bytes
  | .closeLine cid reason => command (.closeConn cid reason) []
  | .decode bytes => command (.decode 0#8 (BitVec.ofNat 32 bytes.length)) bytes
  | .bcd6 b0 b1 b2 b3 b4 b5 => command (.bcd6 0#8 (b0 ++ b1 ++ b2 ++ b3 ++ b4 ++ b5)) []
  | .unpkRtp0 b => command (.unpkRtp0 0#8 b) []
  | .unpkRtp1 b => command (.unpkRtp1 0#8 b) []
  | .unpkDt b => command (.unpkDt 0#8 b) []
  | .rdstat sel cid => ⟨[.word (.cmd80 (commandWord opRdstat cid (sel.setWidth 64)))], []⟩
  | .time v => ⟨[.time v], []⟩
  | .reset => ⟨[.reset], []⟩
  | .feed1 cid bytes => feedChunks cid (bytes.map fun b => [b])
  | .feeds cid bytes sizes => feedChunks cid (cut bytes sizes)

/-- What a program assembles to. -/
def assemble : List AsmLine → Inputs
  | [] => ⟨[], []⟩
  | line :: rest => joinInputs (assembleLine line) (assemble rest)

/-- The state with a program's inputs queued behind what is queued already (log 4). -/
def loadProgram (s : State) (program : List AsmLine) : State :=
  { s with host := s.host ++ (assemble program).host, din := s.din ++ (assemble program).din }

end Sys2Proof.Machine
end

