-- ==== Sys2Proof/Safety.lean ====
section
/-! DEFINITION. The terms claims are stated in: what holds of every context and state between commands, what a
well-formed frame is, and how a list of output records is read. Nothing here is part of the machine. -/

namespace Sys2Proof.Machine

/-! ## Invariants -/

/-- The buffer invariant of an open connection between commands (43_framer.md R183): fewer than 34 bytes, or a
correct header whose frame is not complete. -/
abbrev bufferInv (b : Bytes) : Prop :=
  b.length < 34 ∨ (be b 0 4 = Config.magic ∧ b.length < 34 + (be b 32 2).toNat)

/-- While `id_set = 0` no frame has been decoded: the sticky fields and the two counters are 0 (10_state.md R26 to R28). -/
abbrev identityInv (c : Context) : Prop :=
  c.idSet = false → c.devIdRaw = 0#48 ∧ c.chan = 0#8 ∧ c.pktCnt = 0#64 ∧ c.byteCnt = 0#64

/-- A context between commands: closed with every field at its reset value, or connected with the two invariants
above; never decoding or resyncing (10_state.md R24, R32; 43_framer.md R181 to R183). -/
abbrev contextInv (c : Context) : Prop :=
  c = Context.reset ∨ (c.phase = .connected ∧ bufferInv c.buf ∧ identityInv c)

/-- The state between commands: 1 to 256 contexts, each as it must be, and a capacity the spec allows (00_scope.md R8). -/
abbrev State.Inv (s : State) : Prop :=
  1 ≤ s.ctx.length ∧ s.ctx.length ≤ 256 ∧ s.bufCap.valid = true ∧ ∀ c ∈ s.ctx, contextInv c

/-- The receive buffers' form: each holds 0 to `BUF_CAP` bytes (10_state.md R23, R25). -/
def memoryWf (s : State) : Bool := s.ctx.all fun c => s.bufCap.admits c.buf.length

/-! ## Frames -/

/-- A well-formed frame: at least 34 bytes, the magic first, exactly 34 plus its length field long (30_encoding.md R101). -/
abbrev wellFormedFrame (f : Bytes) : Prop :=
  34 ≤ f.length ∧ be f 0 4 = Config.magic ∧ f.length = 34 + (be f 32 2).toNat

/-- At least 34 bytes that do not begin with the magic (43_framer.md R174). -/
abbrev badHead (b : Bytes) : Prop := 34 ≤ b.length ∧ be b 0 4 ≠ Config.magic

/-- The `FRAME` record FRP emits for a frame of connection `cid` (30_encoding.md R110). -/
def frameRecordOf (cid : Byte) (f : Bytes) : Record := .frame cid (headerFields f) (BitVec.ofNat 32 f.length) f

/-! ## Reading output records -/

/-- Is it a `FRAME` record? -/
def Record.isFrame : Record → Bool
  | .frame _ _ _ _ => true
  | .cond _ _ _ => false
  | .bcd _ => false
  | .rsp _ _ _ _ => false

/-- Is it a `COND` record? -/
def Record.isCond : Record → Bool
  | .frame _ _ _ _ => false
  | .cond _ _ _ => true
  | .bcd _ => false
  | .rsp _ _ _ _ => false

/-- Is it an `RSP` record? -/
def Record.isRsp : Record → Bool
  | .frame _ _ _ _ => false
  | .cond _ _ _ => false
  | .bcd _ => false
  | .rsp _ _ _ _ => true

/-- The `raw` bytes of the `FRAME` records, in order. -/
def rawsOf (recs : List Record) : List Bytes :=
  recs.filterMap fun r => match r with
    | .frame _ _ _ raw => some raw
    | .cond _ _ _ => none
    | .bcd _ => none
    | .rsp _ _ _ _ => none

/-- The number of frames of a given `dataType` among raw frames (44_stats.md R202). -/
def countType (dataType : BitVec 4) (raws : List Bytes) : Nat :=
  raws.countP fun f => (headerFields f).dataType == dataType

/-! ## Reading instructions -/

/-- The `op` an instruction's response echoes; a bare header's is that of `DECODE` (30_encoding.md R114; log 7). -/
def echoOp : Instr → Byte
  | .nop _ => 0x00#8
  | .openConn _ _ => 0x01#8
  | .feed _ _ => 0x02#8
  | .closeConn _ _ => 0x03#8
  | .decode _ _ => 0x04#8
  | .bcd6 _ _ => 0x05#8
  | .unpkRtp0 _ _ => 0x06#8
  | .unpkRtp1 _ _ => 0x06#8
  | .unpkDt _ _ => 0x06#8
  | .rdstatStartTime _ => 0x07#8
  | .rdstatTotalPkts _ => 0x07#8
  | .rdstatTotalBytes _ => 0x07#8
  | .rdstatIframeCnt _ => 0x07#8
  | .rdstatPframeCnt _ => 0x07#8
  | .rdstatConnStatus _ => 0x07#8
  | .rdstatBufLen _ => 0x07#8
  | .rdstatPktCnt _ => 0x07#8
  | .rdstatByteCnt _ => 0x07#8
  | .rdstatDevId _ => 0x07#8
  | .rdstatChannel _ => 0x07#8
  | .rdstatAddrKey _ => 0x07#8
  | .rdstatConnTs _ => 0x07#8
  | .frameHdr _ => 0x04#8

/-- The `cid` an instruction's response echoes (30_encoding.md R114; a bare header's is 0, log 7). -/
def echoCid : Instr → Byte
  | .nop cid => cid
  | .openConn cid _ => cid
  | .feed cid _ => cid
  | .closeConn cid _ => cid
  | .decode cid _ => cid
  | .bcd6 cid _ => cid
  | .unpkRtp0 cid _ => cid
  | .unpkRtp1 cid _ => cid
  | .unpkDt cid _ => cid
  | .rdstatStartTime cid => cid
  | .rdstatTotalPkts cid => cid
  | .rdstatTotalBytes cid => cid
  | .rdstatIframeCnt cid => cid
  | .rdstatPframeCnt cid => cid
  | .rdstatConnStatus cid => cid
  | .rdstatBufLen cid => cid
  | .rdstatPktCnt cid => cid
  | .rdstatByteCnt cid => cid
  | .rdstatDevId cid => cid
  | .rdstatChannel cid => cid
  | .rdstatAddrKey cid => cid
  | .rdstatConnTs cid => cid
  | .frameHdr _ => 0#8

/-- Does an instruction write a context? (10_state.md R35) -/
def writesContext : Instr → Bool
  | .openConn _ _ => true
  | .feed _ _ => true
  | .closeConn _ _ => true
  | .nop _ | .decode _ _ | .bcd6 _ _ | .unpkRtp0 _ _ | .unpkRtp1 _ _ | .unpkDt _ _
  | .rdstatStartTime _ | .rdstatTotalPkts _ | .rdstatTotalBytes _ | .rdstatIframeCnt _ | .rdstatPframeCnt _
  | .rdstatConnStatus _ | .rdstatBufLen _ | .rdstatPktCnt _ | .rdstatByteCnt _ | .rdstatDevId _
  | .rdstatChannel _ | .rdstatAddrKey _ | .rdstatConnTs _ | .frameHdr _ => false

/-- Does an instruction write the counters of `G`? Only `FEED` may (10_state.md R35). -/
def writesGlobal : Instr → Bool
  | .feed _ _ => true
  | .openConn _ _ | .closeConn _ _
  | .nop _ | .decode _ _ | .bcd6 _ _ | .unpkRtp0 _ _ | .unpkRtp1 _ _ | .unpkDt _ _
  | .rdstatStartTime _ | .rdstatTotalPkts _ | .rdstatTotalBytes _ | .rdstatIframeCnt _ | .rdstatPframeCnt _
  | .rdstatConnStatus _ | .rdstatBufLen _ | .rdstatPktCnt _ | .rdstatByteCnt _ | .rdstatDevId _
  | .rdstatChannel _ | .rdstatAddrKey _ | .rdstatConnTs _ | .frameHdr _ => false

/-- Does an instruction's output depend on `G`? Only the global selectors' does (10_state.md R35). -/
def readsGlobal : Instr → Bool
  | .rdstatStartTime _ | .rdstatTotalPkts _ | .rdstatTotalBytes _ | .rdstatIframeCnt _ | .rdstatPframeCnt _ => true
  | .nop _ | .openConn _ _ | .feed _ _ | .closeConn _ _ | .decode _ _ | .bcd6 _ _
  | .unpkRtp0 _ _ | .unpkRtp1 _ _ | .unpkDt _ _
  | .rdstatConnStatus _ | .rdstatBufLen _ | .rdstatPktCnt _ | .rdstatByteCnt _ | .rdstatDevId _
  | .rdstatChannel _ | .rdstatAddrKey _ | .rdstatConnTs _ | .frameHdr _ => false

/-! ## Runs -/

/-- `k` steps of the machine. -/
def run (k : Nat) (s : State) : Result := Sys2Proof.core.run k s

/-- One `FEED` command per chunk, on connection `cid`, as the host issues them. -/
def feedWords (cid : Byte) (chunks : List Bytes) : List HostEvent :=
  chunks.map fun k => .word (encode (.feed cid (BitVec.ofNat 32 k.length)))

end Sys2Proof.Machine
end

