-- ==== Sys2Proof/Certificates/Slice0/Obligations.lean ====
section
/-! DEFINITION. What is claimed of the machine, for the provers. Each docstring names the rule of spec/ it
formalises; where a clause rests on a choice of the model, it names the log entry. -/

open Sys2Proof Sys2Proof.Machine

/-! ## Encodings -/

/-- Decoding the encoding of a well-formed instruction gives it back, every operand at every value
(30_encoding.md R90, R105 to R107). Written as one number, byte 0 first, for the frame header (log 8). -/
def Obligations.DecodeInvertsEncode : Prop :=
  ∀ i : Instr, i.wellFormed = true → decode (encode i) = .ok i

/-- A command word is an instruction of a row of spec/opcode_table.json exactly when it has the bits the row
fixes, and a word no row matches is refused (30_encoding.md R105 to R108, opcode_table.json). -/
def Obligations.TableRowsSelectTheirWords : Prop :=
  ∀ cw : BitVec 80,
    (∀ r ∈ opcodeTable, r.nbits = 80 →
      ((∃ i, decode (.cmd80 cw) = .ok i ∧ i.mnemonic = r.mnemonic) ↔ cw.toNat &&& r.mask = r.value)) ∧
    ((∀ r ∈ opcodeTable, r.nbits = 80 → cw.toNat &&& r.mask ≠ r.value) →
      ∃ e, decode (.cmd80 cw) = .error e)

/-- Every operand is read from its own bits of the word and every other bit is ignored, in plain arithmetic
(30_encoding.md R105, R107, R108 (e)). -/
def Obligations.CommandWordFieldsRead : Prop :=
  ∀ (cid : Byte) (arg : BitVec 64),
    let word := fun op : Nat => InputWord.cmd80 (BitVec.ofNat 80 (op * 2 ^ 72 + cid.toNat * 2 ^ 64 + arg.toNat))
    decode (word 0x00) = .ok (.nop cid) ∧
    decode (word 0x01) = .ok (.openConn cid arg) ∧
    decode (word 0x02) = .ok (.feed cid (BitVec.ofNat 32 (arg.toNat % 2 ^ 32))) ∧
    decode (word 0x03) = .ok (.closeConn cid (if arg.toNat % 2 = 0 then .eof else .err)) ∧
    decode (word 0x04) = .ok (.decode cid (BitVec.ofNat 32 (arg.toNat % 2 ^ 32))) ∧
    decode (word 0x05) = .ok (.bcd6 cid (BitVec.ofNat 48 (arg.toNat % 2 ^ 48))) ∧
    (arg.toNat / 256 % 4 = 0 → decode (word 0x06) = .ok (.unpkRtp0 cid (BitVec.ofNat 8 (arg.toNat % 256)))) ∧
    (arg.toNat / 256 % 4 = 1 → decode (word 0x06) = .ok (.unpkRtp1 cid (BitVec.ofNat 8 (arg.toNat % 256)))) ∧
    (arg.toNat / 256 % 4 = 2 → decode (word 0x06) = .ok (.unpkDt cid (BitVec.ofNat 8 (arg.toNat % 256)))) ∧
    (arg.toNat % 256 = 0x00 → decode (word 0x07) = .ok (.rdstatStartTime cid)) ∧
    (arg.toNat % 256 = 0x01 → decode (word 0x07) = .ok (.rdstatTotalPkts cid)) ∧
    (arg.toNat % 256 = 0x02 → decode (word 0x07) = .ok (.rdstatTotalBytes cid)) ∧
    (arg.toNat % 256 = 0x03 → decode (word 0x07) = .ok (.rdstatIframeCnt cid)) ∧
    (arg.toNat % 256 = 0x04 → decode (word 0x07) = .ok (.rdstatPframeCnt cid)) ∧
    (arg.toNat % 256 = 0x10 → decode (word 0x07) = .ok (.rdstatConnStatus cid)) ∧
    (arg.toNat % 256 = 0x11 → decode (word 0x07) = .ok (.rdstatBufLen cid)) ∧
    (arg.toNat % 256 = 0x12 → decode (word 0x07) = .ok (.rdstatPktCnt cid)) ∧
    (arg.toNat % 256 = 0x13 → decode (word 0x07) = .ok (.rdstatByteCnt cid)) ∧
    (arg.toNat % 256 = 0x14 → decode (word 0x07) = .ok (.rdstatDevId cid)) ∧
    (arg.toNat % 256 = 0x15 → decode (word 0x07) = .ok (.rdstatChannel cid)) ∧
    (arg.toNat % 256 = 0x16 → decode (word 0x07) = .ok (.rdstatAddrKey cid)) ∧
    (arg.toNat % 256 = 0x17 → decode (word 0x07) = .ok (.rdstatConnTs cid))

/-- 34 bytes are a header exactly when they begin with the magic, and no bit of the header is lost: the
instruction read from them encodes to the same 34 bytes (30_encoding.md R90, R98; logs 7, 8). -/
def Obligations.HeaderWordKeepsEveryBit : Prop :=
  ∀ w : BitVec 272,
    (w.toNat / 2 ^ 240 = 0x30316364 → ∃ h, decode (.wire34 w) = .ok (.frameHdr h) ∧ encode (.frameHdr h) = .wire34 w) ∧
    (w.toNat / 2 ^ 240 ≠ 0x30316364 → decode (.wire34 w) = .error (.badMagic w))

/-- Words written out from the spec decode to the instructions they stand for: the command words of
40_bcd.md R133, 41_unpack.md R141 to R143, 42_decode.md R156, 43_framer.md R170, R171, R181,
44_stats.md R205, R207. -/
def Obligations.SampleWordsDecode : Prop :=
  decode (.cmd80 0x00000000000000000000) = .ok (.nop 0) ∧
  decode (.cmd80 0x01000000C0A80001D431) = .ok (.openConn 0 0xC0A80001D431) ∧
  decode (.cmd80 0x02000000000000000025) = .ok (.feed 0 37) ∧
  decode (.cmd80 0x03000000000000000001) = .ok (.closeConn 0 .err) ∧
  decode (.cmd80 0x04000000000000000025) = .ok (.decode 0 37) ∧
  decode (.cmd80 0x05000000138000000001) = .ok (.bcd6 0 0x138000000001) ∧
  decode (.cmd80 0x06000000000000000081) = .ok (.unpkRtp0 0 0x81) ∧
  decode (.cmd80 0x060000000000000001E2) = .ok (.unpkRtp1 0 0xE2) ∧
  decode (.cmd80 0x06ABFFFFFFFFFFFFFE10) = .ok (.unpkDt 0xAB 0x10) ∧
  decode (.cmd80 0x07010000000000000012) = .ok (.rdstatPktCnt 1)

/-- A byte sequence is well-formed exactly when it is `mkframe` of some fields and a payload of at most 65535
bytes (30_encoding.md R101). -/
def Obligations.WellFormedIsMkframe : Prop :=
  ∀ f : Bytes, wellFormedFrame f ↔
    ∃ (f4 f5 : Byte) (seq : BitVec 16) (rsv : BitVec 32) (id : BitVec 48) (ch b19 : Byte) (ts : BitVec 64)
      (li lf : BitVec 16) (p : Bytes),
      p.length ≤ 65535 ∧ f = mkframe f4 f5 seq rsv id ch b19 ts li lf p

/-- What the Frame Decoder reads from a frame built with given fields and a payload: each field whole, at its
offset, big-endian; the packed bytes split as R92 to R94 say; the payload as it is; no mismatch
(42_decode.md R150 to R154; 30_encoding.md R90 to R94, R101). -/
def Obligations.DecodeFrameReadsMkframe : Prop :=
  ∀ (f4 f5 : Byte) (seq : BitVec 16) (rsv : BitVec 32) (id : BitVec 48) (ch b19 : Byte) (ts : BitVec 64)
    (li lf : BitVec 16) (p : Bytes), p.length ≤ 65535 →
    decodeFrame (mkframe f4 f5 seq rsv id ch b19 ts li lf p) = .ok
      { fields :=
          { magic := 0x30316364#32
            rtpVersion := BitVec.ofNat 2 (f4.toNat / 64)
            rtpPadding := BitVec.ofNat 1 (f4.toNat / 32 % 2)
            rtpExtension := BitVec.ofNat 1 (f4.toNat / 16 % 2)
            csrcCount := BitVec.ofNat 4 (f4.toNat % 16)
            marker := BitVec.ofNat 1 (f5.toNat / 128)
            payloadType := BitVec.ofNat 7 (f5.toNat % 128)
            sequence := seq
            deviceId := carryDigits (bcd6 id)
            channel := ch
            dataType := BitVec.ofNat 4 (b19.toNat % 16)
            subpackage := BitVec.ofNat 2 (b19.toNat / 16 % 4)
            timestampMs := ts
            lastIFrameIntervalMs := li
            lastFrameIntervalMs := lf
            declaredPayloadLength := BitVec.ofNat 16 p.length }
        payload := p } false

/-- The Frame Decoder's checks in their order, on any bytes: fewer than 34 bytes fail as `BufferTooShort` whatever they
are; with at least 34, any wrong bit of the first four bytes fails as `BadMagic`; everything else decodes, and the
diagnostic is set exactly when the payload present has not the declared length (42_decode.md R151, R152, R154). -/
def Obligations.DecodeFrameChecksInOrder : Prop :=
  ∀ f : Bytes,
    (f.length < 34 → decodeFrame f = .fail .bufferTooShort) ∧
    (34 ≤ f.length → be f 0 4 ≠ 0x30316364#32 → decodeFrame f = .fail .badMagic) ∧
    (34 ≤ f.length → be f 0 4 = 0x30316364#32 → ∃ mismatch : Bool,
      decodeFrame f = .ok { fields := headerFields f, payload := f.drop 34 } mismatch ∧
      (mismatch = true ↔ f.length - 34 ≠ (be f 32 2).toNat))

/-! ## Steps, words that are no instruction, and the other host events -/

/-- A step runs the decoded instruction: with a word at the head of the queue that decodes to `i`, the step is
`exec i` at that very state (00_scope.md R6; 30_encoding.md R104). Nothing is added around `exec`: taking the word
off the queue is part of every completed meaning (log 4). -/
def Obligations.StepRunsDecodedInstruction : Prop :=
  ∀ (s : State) (w : InputWord) (rest : List HostEvent) (i : Instr),
    s.host = .word w :: rest → decode w = .ok i → step s = exec i s

/-- Every step answers a next state: no state and no input stops the machine (00_scope.md R14;
60_exceptions.md R242; 93_implementation_defined.md, end of Part 1). -/
def Obligations.EveryStepCompletes : Prop :=
  ∀ s : State, ∃ t, step s = .next t

/-- `IllegalOp` (60_exceptions.md R228): rejected, no state change, nothing taken from data-in, the illegal code
and `cid` echoed, `val` 0. -/
def Obligations.ReservedOpcodeRejected : Prop :=
  ∀ (s : State) (rest : List HostEvent) (cw : BitVec 80),
    s.host = .word (.cmd80 cw) :: rest → 8 ≤ cw.toNat / 2 ^ 72 →
    step s = .next { s with
      host := rest
      out := s.out ++ [.rsp (BitVec.ofNat 8 (cw.toNat / 2 ^ 72)) (BitVec.ofNat 8 (cw.toNat / 2 ^ 64 % 256))
        .illegalOp 0#64] }

/-- `op` = 0x06 with `arg[9:8]` = 3 is rejected with `BadOperand`, `val` 0, no state change (41_unpack.md R144). -/
def Obligations.UnpkLayoutThreeRejected : Prop :=
  ∀ (s : State) (rest : List HostEvent) (cw : BitVec 80),
    s.host = .word (.cmd80 cw) :: rest → cw.toNat / 2 ^ 72 = 0x06 → cw.toNat / 256 % 4 = 3 →
    step s = .next { s with
      host := rest
      out := s.out ++ [.rsp 0x06#8 (BitVec.ofNat 8 (cw.toNat / 2 ^ 64 % 256)) .badOperand 0#64] }

/-- `RDSTAT` with an unlisted selector is rejected with `BadOperand`, whatever `cid` (44_stats.md R205, R206;
60_exceptions.md R231). -/
def Obligations.UnlistedSelectorRejected : Prop :=
  ∀ (s : State) (rest : List HostEvent) (cw : BitVec 80),
    s.host = .word (.cmd80 cw) :: rest → cw.toNat / 2 ^ 72 = 0x07 →
    (5 ≤ cw.toNat % 256 ∧ cw.toNat % 256 ≤ 0x0F ∨ 0x18 ≤ cw.toNat % 256) →
    step s = .next { s with
      host := rest
      out := s.out ++ [.rsp 0x07#8 (BitVec.ofNat 8 (cw.toNat / 2 ^ 64 % 256)) .badOperand 0#64] }

/-- 34 bytes handed over as a bare header without the magic number are answered as `DECODE` answers them: `BadMagic`
with `info` 34 (42_decode.md R152, R156). That a bare header is an input at all is the model's choice (log 7). -/
def Obligations.BareHeaderBadMagicAnswered : Prop :=
  ∀ (s : State) (rest : List HostEvent) (w : BitVec 272),
    s.host = .word (.wire34 w) :: rest → w.toNat / 2 ^ 240 ≠ 0x30316364 →
    step s = .next { s with
      host := rest
      out := s.out ++ [.cond 0#8 .badMagic 34#32, .rsp 0x04#8 0#8 .badMagic 0#64] }

/-- With nothing queued FRP holds all state; `.time v` changes the value on `host_time` and nothing else
(60_exceptions.md R240; 30_encoding.md R118). The queue of host events is the model's choice (logs 4, 11). -/
def Obligations.IdleAndTimeEvents : Prop :=
  (∀ s : State, s.host = [] → step s = .next s) ∧
  (∀ (s : State) (v : Time) (rest : List HostEvent), s.host = .time v :: rest →
    step s = .next { s with host := rest, hostTime := v })

/-- After reset every field of every context and of `G` has the value of the reset column, `start_time` the value on
`host_time`, and the parameters are as they were (10_state.md R33; 70_reset_and_hazards.md R250). That reset is an
event of the queue, taken between commands, is the model's choice (logs 4, 9); so is that the events behind it, the
bytes on data-in, the port and the records already emitted stay as they are, where R251 leaves the inputs to the host. -/
def Obligations.ResetEventRestoresResetState : Prop :=
  ∀ (s : State) (rest : List HostEvent), s.host = .reset :: rest →
    ∃ t, step s = .next t ∧ t.ctx.length = s.ctx.length ∧ t.bufCap = s.bufCap ∧
      (∀ c ∈ t.ctx, c.phase = .closed ∧ c.buf = [] ∧ c.pktCnt = 0#64 ∧ c.byteCnt = 0#64 ∧ c.idSet = false ∧
        c.devIdRaw = 0#48 ∧ c.chan = 0#8 ∧ c.addrKey = 0#64 ∧ c.connTs = 0#64) ∧
      t.g.startTime = s.hostTime ∧ t.g.totalPkts = 0#64 ∧ t.g.totalBytes = 0#64 ∧ t.g.iframeCnt = 0#64 ∧
      t.g.pframeCnt = 0#64 ∧
      t.hostTime = s.hostTime ∧ t.host = rest ∧ t.din = s.din ∧ t.out = s.out

/-! ## NOP, BCD6, UNPK -/

/-- `NOP` responds `OK` with `val` 0 and `cid` echoed, and writes no state (44_stats.md R207). -/
def Obligations.NopResponds : Prop :=
  ∀ (cid : Byte) (s : State),
    exec (.nop cid) s = .next { s with host := s.host.tail, out := s.out ++ [.rsp 0x00#8 cid .ok 0#64] }

/-- `BCD6` emits the digit string of its six bytes and responds with its length: for each byte the high nibble, then
the low nibble, each as its decimal numeral (40_bcd.md R130, R131, R133; 30_encoding.md R113). -/
def Obligations.Bcd6EmitsDecimalNumerals : Prop :=
  ∀ (cid : Byte) (bytes : BitVec 48) (s : State),
    let str : Bytes := (List.range 12).flatMap fun k =>
      (Nat.toDigits 10 (bytes.toNat / 16 ^ (11 - k) % 16)).map fun ch => BitVec.ofNat 8 ch.toNat
    exec (.bcd6 cid bytes) s = .next { s with
      host := s.host.tail
      out := s.out ++ [
        .bcd ⟨BitVec.ofNat 5 str.length, str ++ List.replicate (24 - str.length) 0#8⟩,
        .rsp 0x05#8 cid .ok (BitVec.ofNat 64 str.length)] }

/-- Every character is an ASCII digit, the length is 12 plus the number of nibbles above 9, and so between 12 and 24
(40_bcd.md R132). -/
def Obligations.DigitStringShape : Prop :=
  ∀ bytes : BitVec 48,
    (∀ ch ∈ bcd6 bytes, 0x30 ≤ ch.toNat ∧ ch.toNat ≤ 0x39) ∧
    (bcd6 bytes).length = 12 + (List.range 12).countP (fun k => decide (9 < bytes.toNat / 16 ^ (11 - k) % 16)) ∧
    12 ≤ (bcd6 bytes).length ∧ (bcd6 bytes).length ≤ 24

/-- `UNPK.RTP0`: version, padding, extension and CSRC count in bytes 0 to 3 of `val`, in plain arithmetic on the
byte (41_unpack.md R141). -/
def Obligations.UnpkRtp0SplitsByte : Prop :=
  ∀ (cid byte : Byte) (s : State),
    exec (.unpkRtp0 cid byte) s = .next { s with
      host := s.host.tail
      out := s.out ++ [.rsp 0x06#8 cid .ok (BitVec.ofNat 64
        (byte.toNat / 64 + 2 ^ 8 * (byte.toNat / 32 % 2) + 2 ^ 16 * (byte.toNat / 16 % 2) +
          2 ^ 24 * (byte.toNat % 16)))] }

/-- `UNPK.RTP1`: marker and payload type in bytes 0 and 1 of `val` (41_unpack.md R142). -/
def Obligations.UnpkRtp1SplitsByte : Prop :=
  ∀ (cid byte : Byte) (s : State),
    exec (.unpkRtp1 cid byte) s = .next { s with
      host := s.host.tail
      out := s.out ++ [.rsp 0x06#8 cid .ok (BitVec.ofNat 64
        (byte.toNat / 128 + 2 ^ 8 * (byte.toNat % 128)))] }

/-- `UNPK.DT`: data type and subpackage in bytes 0 and 1 of `val`, bits 7:6 dropped (41_unpack.md R143). -/
def Obligations.UnpkDtSplitsByte : Prop :=
  ∀ (cid byte : Byte) (s : State),
    exec (.unpkDt cid byte) s = .next { s with
      host := s.host.tail
      out := s.out ++ [.rsp 0x06#8 cid .ok (BitVec.ofNat 64
        (byte.toNat % 16 + 2 ^ 8 * (byte.toNat / 16 % 4)))] }

/-! ## RDSTAT -/

/-- The five global selectors read their field of `G` for every `cid` and write nothing
(44_stats.md R280 to R284). -/
def Obligations.GlobalSelectorsReadTheirField : Prop :=
  ∀ (cid : Byte) (s : State),
    let answer := fun v : BitVec 64 =>
      (.next { s with host := s.host.tail, out := s.out ++ [.rsp 0x07#8 cid .ok v] } : Result)
    exec (.rdstatStartTime cid) s = answer s.g.startTime ∧
    exec (.rdstatTotalPkts cid) s = answer s.g.totalPkts ∧
    exec (.rdstatTotalBytes cid) s = answer s.g.totalBytes ∧
    exec (.rdstatIframeCnt cid) s = answer s.g.iframeCnt ∧
    exec (.rdstatPframeCnt cid) s = answer s.g.pframeCnt

/-- The eight per-context selectors read their field of `C[cid]` and write nothing; the status word is the phase
code plus 4 when `id_set` is 1 (44_stats.md R205, R206, R285 to R292). -/
def Obligations.ContextSelectorsReadTheirField : Prop :=
  ∀ (cid : Byte) (s : State) (c : Context), s.ctx[cid.toNat]? = some c →
    let answer := fun v : BitVec 64 =>
      (.next { s with host := s.host.tail, out := s.out ++ [.rsp 0x07#8 cid .ok v] } : Result)
    exec (.rdstatConnStatus cid) s =
      answer (BitVec.ofNat 64 ((phaseCode c.phase).toNat + if c.idSet then 4 else 0)) ∧
    exec (.rdstatBufLen cid) s = answer (BitVec.ofNat 64 c.buf.length) ∧
    exec (.rdstatPktCnt cid) s = answer c.pktCnt ∧
    exec (.rdstatByteCnt cid) s = answer c.byteCnt ∧
    exec (.rdstatDevId cid) s = answer (BitVec.ofNat 64 c.devIdRaw.toNat) ∧
    exec (.rdstatChannel cid) s = answer (BitVec.ofNat 64 c.chan.toNat) ∧
    exec (.rdstatAddrKey cid) s = answer c.addrKey ∧
    exec (.rdstatConnTs cid) s = answer c.connTs

/-- A per-context selector with `cid >= NCONN` is rejected with `BadOperand`, `val` 0 (44_stats.md R205;
60_exceptions.md R229). -/
def Obligations.ContextSelectorsRejectBadCid : Prop :=
  ∀ (cid : Byte) (s : State), s.ctx.length ≤ cid.toNat →
    ∀ i ∈ [Instr.rdstatConnStatus cid, .rdstatBufLen cid, .rdstatPktCnt cid, .rdstatByteCnt cid,
      .rdstatDevId cid, .rdstatChannel cid, .rdstatAddrKey cid, .rdstatConnTs cid],
      exec i s = .next { s with
        host := s.host.tail, out := s.out ++ [.rsp 0x07#8 cid .badOperand 0#64] }

/-- Between commands the status word is only ever 0, 1 or 5, the buffer length at most 65568, and every selector of
a closed slot reads 0 (44_stats.md R206, R285, R286; 10_state.md R32). -/
def Obligations.SelectorsBetweenCommands : Prop :=
  ∀ (cid : Byte) (s : State) (c : Context), s.Inv → s.ctx[cid.toNat]? = some c →
    let answer := fun v : BitVec 64 =>
      (.next { s with host := s.host.tail, out := s.out ++ [.rsp 0x07#8 cid .ok v] } : Result)
    (∃ v : BitVec 64, (v = 0#64 ∨ v = 1#64 ∨ v = 5#64) ∧ exec (.rdstatConnStatus cid) s = answer v) ∧
    (∃ n : Nat, n ≤ 65568 ∧ exec (.rdstatBufLen cid) s = answer (BitVec.ofNat 64 n)) ∧
    (c.phase = .closed →
      ∀ i ∈ [Instr.rdstatConnStatus cid, .rdstatBufLen cid, .rdstatPktCnt cid, .rdstatByteCnt cid,
        .rdstatDevId cid, .rdstatChannel cid, .rdstatAddrKey cid, .rdstatConnTs cid],
        exec i s = answer 0#64)

/-! ## DECODE and the bare header -/

/-- `DECODE` with its LEN bytes `f` at the head of data-in: more than the capacity, too short, bad magic, a frame, or a
frame with the length diagnostic, in that order; the bytes are taken in every case and no context, no counter changes
(42_decode.md R156). -/
def Obligations.DecodeCommandResult : Prop :=
  ∀ (cid : Byte) (len : BitVec 32) (s : State) (f rest : Bytes), s.din = f ++ rest → f.length = len.toNat →
    let answer := fun (recs : List Record) (st : Status) (v : BitVec 64) =>
      (.next { s with
        host := s.host.tail, din := rest, out := s.out ++ recs ++ [.rsp 0x04#8 cid st v] } : Result)
    (s.bufCap.admits f.length = false → exec (.decode cid len) s = answer [] .bufferOverflow 0#64) ∧
    (s.bufCap.admits f.length → f.length < 34 →
      exec (.decode cid len) s = answer [.cond cid .bufferTooShort len] .bufferTooShort 0#64) ∧
    (s.bufCap.admits f.length → 34 ≤ f.length → be f 0 4 ≠ 0x30316364#32 →
      exec (.decode cid len) s = answer [.cond cid .badMagic len] .badMagic 0#64) ∧
    (s.bufCap.admits f.length → 34 ≤ f.length → be f 0 4 = 0x30316364#32 → f.length - 34 = (be f 32 2).toNat →
      exec (.decode cid len) s = answer [.frame cid (headerFields f) len f] .ok 1#64) ∧
    (s.bufCap.admits f.length → 34 ≤ f.length → be f 0 4 = 0x30316364#32 → f.length - 34 ≠ (be f 32 2).toNat →
      exec (.decode cid len) s =
        answer [.cond cid .payloadLengthMismatch (len - 34#32), .frame cid (headerFields f) len f]
          .payloadLengthMismatch 1#64)

/-- `FEED` and `DECODE` wait, changing nothing, while fewer than LEN bytes stand on data-in. The model's choice
(log 5); 30_encoding.md R115 has them take exactly LEN bytes. -/
def Obligations.CommandsWaitForTheirBytes : Prop :=
  ∀ (cid : Byte) (len : BitVec 32) (s : State), s.din.length < len.toNat →
    exec (.feed cid len) s = .next s ∧ exec (.decode cid len) s = .next s

/-- A bare header decodes to a frame whose fields are the header's own, with an empty payload: `FRAME`, preceded by
the length diagnostic when the header declares a payload (42_decode.md R153, R154, R156; 30_encoding.md R90), at every
capacity the spec allows. That a bare header is an input of its own is the model's choice (log 7). -/
def Obligations.FrameHeaderDecodes : Prop :=
  ∀ (h : FrameHeader) (s : State), h.wellFormed = true → s.bufCap.valid →
    exec (.frameHdr h) s = .next { s with
      host := s.host.tail
      out := s.out ++
        (if h.declaredPayloadLength = 0#16 then [] else [.cond 0#8 .payloadLengthMismatch 0#32]) ++
        [.frame 0#8
          { magic := 0x30316364#32, rtpVersion := h.rtpVersion, rtpPadding := h.rtpPadding,
            rtpExtension := h.rtpExtension, csrcCount := h.csrcCount, marker := h.marker,
            payloadType := h.payloadType, sequence := h.sequence, deviceId := carryDigits (bcd6 h.deviceIdRaw),
            channel := h.channel, dataType := h.dataType, subpackage := h.subpackage,
            timestampMs := h.timestampMs, lastIFrameIntervalMs := h.lastIFrameIntervalMs,
            lastFrameIntervalMs := h.lastFrameIntervalMs, declaredPayloadLength := h.declaredPayloadLength }
          34#32 (headerBytes h),
         .rsp 0x04#8 0#8 (if h.declaredPayloadLength = 0#16 then .ok else .payloadLengthMismatch) 1#64] }

/-- A bare header does exactly what `DECODE` with its 34 bytes on data-in does (42_decode.md R156; log 7). -/
def Obligations.FrameHeaderIsDecodeOfItsBytes : Prop :=
  ∀ (h : FrameHeader) (s : State),
    exec (.frameHdr h) s = exec (.decode 0#8 34#32) { s with din := headerBytes h ++ s.din }

/-! ## OPEN and CLOSE -/

/-- `OPEN` (43_framer.md R170): a context out of range is rejected, a context that is not closed is rejected and
untouched, and a closed one becomes a fresh connection with the operand's key and the time on `host_time`. -/
def Obligations.OpenInitialisesClosedSlot : Prop :=
  ∀ (cid : Byte) (key : AddrKey) (s : State),
    let answer := fun (s' : State) (st : Status) =>
      (.next { s' with host := s.host.tail, out := s.out ++ [.rsp 0x01#8 cid st 0#64] } : Result)
    (s.ctx.length ≤ cid.toNat → exec (.openConn cid key) s = answer s .badOperand) ∧
    (∀ c, s.ctx[cid.toNat]? = some c → c.phase ≠ .closed → exec (.openConn cid key) s = answer s .alreadyOpen) ∧
    (∀ c, s.ctx[cid.toNat]? = some c → c.phase = .closed →
      exec (.openConn cid key) s = answer { s with
        ctx := s.ctx.set cid.toNat
          { phase := .connected, buf := [], pktCnt := 0#64, byteCnt := 0#64, idSet := false,
            devIdRaw := 0#48, chan := 0#8, addrKey := key, connTs := s.hostTime } } .ok)

/-- `CLOSE` (43_framer.md R181): rejected out of range or when the context is not connected; else the reason is
reported with the number of buffered bytes, and every field of the context goes to its reset value. A number of 2^32
or more, which no buffer holds between commands, has no stated 32-bit `info` (log 16). -/
def Obligations.CloseRemovesContext : Prop :=
  ∀ (cid : Byte) (reason : CloseReason) (s : State),
    let answer := fun (s' : State) (recs : List Record) (st : Status) =>
      (.next { s' with host := s.host.tail, out := s.out ++ recs ++ [.rsp 0x03#8 cid st 0#64] } : Result)
    (s.ctx.length ≤ cid.toNat → exec (.closeConn cid reason) s = answer s [] .badOperand) ∧
    (∀ c, s.ctx[cid.toNat]? = some c → c.phase ≠ .connected →
      exec (.closeConn cid reason) s = answer s [] .notOpen) ∧
    (∀ c, s.ctx[cid.toNat]? = some c → c.phase = .connected →
      ∃ info : BitVec 32, (c.buf.length < 2 ^ 32 → info.toNat = c.buf.length) ∧
        exec (.closeConn cid reason) s = answer { s with
          ctx := s.ctx.set cid.toNat
            { phase := .closed, buf := [], pktCnt := 0#64, byteCnt := 0#64, idSet := false,
              devIdRaw := 0#48, chan := 0#8, addrKey := 0#64, connTs := 0#64 } }
          [.cond cid (match reason with | .eof => .connectionClosed | .err => .connectionError) info] .ok)

/-! ## FEED -/

/-- A rejected `FEED` takes its LEN bytes, drops them and changes nothing else; `BadOperand` before `NotOpen` before
`BufferOverflow` (43_framer.md R171; 60_exceptions.md R225, R226, R229, R231). -/
def Obligations.FeedRejectionsDropTheChunk : Prop :=
  ∀ (cid : Byte) (len : BitVec 32) (s : State) (chunk rest : Bytes),
    s.din = chunk ++ rest → chunk.length = len.toNat →
    let answer := fun st : Status =>
      (.next { s with
        host := s.host.tail, din := rest, out := s.out ++ [.rsp 0x02#8 cid st 0#64] } : Result)
    (s.ctx.length ≤ cid.toNat → exec (.feed cid len) s = answer .badOperand) ∧
    (∀ c, s.ctx[cid.toNat]? = some c → c.phase ≠ .connected → exec (.feed cid len) s = answer .notOpen) ∧
    (∀ c, s.ctx[cid.toNat]? = some c → c.phase = .connected → s.bufCap.admits (c.buf.length + len.toNat) = false →
      exec (.feed cid len) s = answer .bufferOverflow)

/-- `FEED` is carried out whenever the context is connected, the bytes are there and they fit: it takes its bytes,
writes only its own context and the counters of `G`, leaves the phase `CONNECTED` and the address key, connection and
start times alone, and responds `OK` with the number of `FRAME` records it emitted (43_framer.md R171, R180, R182). -/
def Obligations.FeedIsCarriedOut : Prop :=
  ∀ (cid : Byte) (len : BitVec 32) (s : State) (chunk rest : Bytes) (c : Context),
    s.din = chunk ++ rest → chunk.length = len.toNat → s.ctx[cid.toNat]? = some c → c.phase = .connected →
    s.bufCap.admits (c.buf.length + len.toNat) →
    ∃ (c' : Context) (g' : GlobalStats) (recs : List Record),
      exec (.feed cid len) s = .next { s with
        ctx := s.ctx.set cid.toNat c', g := g', host := s.host.tail, din := rest
        out := s.out ++ recs ++ [.rsp 0x02#8 cid .ok (BitVec.ofNat 64 (rawsOf recs).length)] } ∧
      c'.phase = .connected ∧ c'.addrKey = c.addrKey ∧ c'.connTs = c.connTs ∧
      g'.startTime = s.g.startTime ∧ (∀ r ∈ recs, r.isRsp = false)

/-- Steps 1 and 4: while the buffer with the chunk appended holds fewer than 34 bytes, or a correct header whose
frame is not complete, `FEED` keeps it whole, raises nothing and emits no frame (43_framer.md R173, R176). -/
def Obligations.FeedKeepsIncompleteFrame : Prop :=
  ∀ (cid : Byte) (len : BitVec 32) (s : State) (chunk rest : Bytes) (c : Context),
    s.din = chunk ++ rest → chunk.length = len.toNat → s.ctx[cid.toNat]? = some c → c.phase = .connected →
    s.bufCap.admits (c.buf.length + len.toNat) → bufferInv (c.buf ++ chunk) →
    exec (.feed cid len) s = .next { s with
      ctx := s.ctx.set cid.toNat { c with buf := c.buf ++ chunk }, host := s.host.tail, din := rest
      out := s.out ++ [.rsp 0x02#8 cid .ok 0#64] }

/-- Step 2: at least 34 bytes that do not begin with the magic are all discarded, `BadMagic` is raised with their
number, and the connection stays open with its counters and identity as they were (43_framer.md R174;
60_exceptions.md R222). A number of 2^32 or more has no stated 32-bit `info` (log 16). -/
def Obligations.FeedClearsOnBadMagic : Prop :=
  ∀ (cid : Byte) (len : BitVec 32) (s : State) (chunk rest : Bytes) (c : Context),
    s.din = chunk ++ rest → chunk.length = len.toNat → s.ctx[cid.toNat]? = some c → c.phase = .connected →
    s.bufCap.admits (c.buf.length + len.toNat) → badHead (c.buf ++ chunk) →
    ∃ info : BitVec 32, ((c.buf ++ chunk).length < 2 ^ 32 → info.toNat = (c.buf ++ chunk).length) ∧
      exec (.feed cid len) s = .next { s with
        ctx := s.ctx.set cid.toNat { c with buf := [] }, host := s.host.tail, din := rest
        out := s.out ++ [.cond cid .badMagic info, .rsp 0x02#8 cid .ok 0#64] }

/-- Step 5: when the buffer with the chunk appended begins with a whole frame `f`, `FEED` emits its `FRAME` record,
counts it in the connection and in `G`, records the identity if none is set, and goes on exactly as a `FEED` of the
remaining bytes into the empty buffer would (43_framer.md R177; 44_stats.md R200 to R202). That the same number of
discarded bytes is reported alike in both, even from 2^32 bytes on, is the model's choice (log 16). -/
def Obligations.FeedPeelsOneFrame : Prop :=
  ∀ (cid : Byte) (len len' : BitVec 32) (s : State) (chunk rest f more : Bytes) (c : Context),
    s.din = chunk ++ rest → chunk.length = len.toNat → s.ctx[cid.toNat]? = some c → c.phase = .connected →
    s.bufCap.admits (c.buf.length + len.toNat) → c.buf ++ chunk = f ++ more → wellFormedFrame f →
    more.length = len'.toNat →
    let counted : Context :=
      { c with
        buf := []
        pktCnt := c.pktCnt + 1#64
        byteCnt := c.byteCnt + BitVec.ofNat 64 f.length
        idSet := true
        devIdRaw := if c.idSet then c.devIdRaw else be f 12 6
        chan := if c.idSet then c.chan else be f 18 1 }
    let total : GlobalStats :=
      { s.g with
        totalPkts := s.g.totalPkts + 1#64
        totalBytes := s.g.totalBytes + BitVec.ofNat 64 f.length
        iframeCnt := s.g.iframeCnt + if (be f 19 1).toNat % 16 = 0 then 1#64 else 0#64
        pframeCnt := s.g.pframeCnt + if (be f 19 1).toNat % 16 = 1 then 1#64 else 0#64 }
    ∃ (t : State) (recs : List Record) (n : Nat),
      exec (.feed cid len') { s with
          ctx := s.ctx.set cid.toNat counted, g := total, din := more ++ rest,
          out := s.out ++ [frameRecordOf cid f] } =
        .next { t with out := s.out ++ [frameRecordOf cid f] ++ recs ++ [.rsp 0x02#8 cid .ok (BitVec.ofNat 64 n)] } ∧
      exec (.feed cid len) s =
        .next { t with out := s.out ++ [frameRecordOf cid f] ++ recs ++
          [.rsp 0x02#8 cid .ok (BitVec.ofNat 64 (n + 1))] }

/-- One `FEED` cuts its frames from the head of the buffer in stream order, each a whole well-formed frame emitted as
its own `FRAME` record with `cid` echoed; then at most one `COND`, which is `BadMagic` with the number of bytes
discarded; at most one frame per 34 bytes (43_framer.md R177 to R179). A number of 2^32 or more has no stated 32-bit
`info` (log 16). -/
def Obligations.FeedEmitsStreamInOrder : Prop :=
  ∀ (cid : Byte) (len : BitVec 32) (s t : State) (chunk rest : Bytes) (c : Context),
    s.din = chunk ++ rest → chunk.length = len.toNat → s.ctx[cid.toNat]? = some c → c.phase = .connected →
    s.bufCap.admits (c.buf.length + len.toNat) → exec (.feed cid len) s = .next t →
    ∃ (fs : List Bytes) (tail : Bytes) (c' : Context),
      c.buf ++ chunk = fs.flatten ++ tail ∧ (∀ f ∈ fs, wellFormedFrame f) ∧ t.ctx[cid.toNat]? = some c' ∧
      fs.length * 34 ≤ c.buf.length + len.toNat ∧
      ((c'.buf = tail ∧ bufferInv tail ∧
          t.out = s.out ++ fs.map (frameRecordOf cid) ++ [.rsp 0x02#8 cid .ok (BitVec.ofNat 64 fs.length)]) ∨
        (c'.buf = [] ∧ badHead tail ∧ ∃ info : BitVec 32, (tail.length < 2 ^ 32 → info.toNat = tail.length) ∧
          t.out = s.out ++ fs.map (frameRecordOf cid) ++
            [.cond cid .badMagic info, .rsp 0x02#8 cid .ok (BitVec.ofNat 64 fs.length)]))

/-- The counters follow the frames emitted, modulo 2^64: packets by one and bytes by the frame's length, for the
connection and for `G`; I-frames and P-frames by data type; other types only in the totals (44_stats.md R200, R202,
R203, R204). -/
def Obligations.FeedCountsEmittedFrames : Prop :=
  ∀ (cid : Byte) (len : BitVec 32) (s t : State) (c c' : Context) (recs : List Record),
    len.toNat ≤ s.din.length → s.ctx[cid.toNat]? = some c → c.phase = .connected →
    s.bufCap.admits (c.buf.length + len.toNat) → exec (.feed cid len) s = .next t →
    t.out = s.out ++ recs → t.ctx[cid.toNat]? = some c' →
    c'.pktCnt = c.pktCnt + BitVec.ofNat 64 (rawsOf recs).length ∧
    c'.byteCnt = c.byteCnt + BitVec.ofNat 64 ((rawsOf recs).map List.length).sum ∧
    t.g.totalPkts = s.g.totalPkts + BitVec.ofNat 64 (rawsOf recs).length ∧
    t.g.totalBytes = s.g.totalBytes + BitVec.ofNat 64 ((rawsOf recs).map List.length).sum ∧
    t.g.iframeCnt = s.g.iframeCnt + BitVec.ofNat 64 (countType 0#4 (rawsOf recs)) ∧
    t.g.pframeCnt = s.g.pframeCnt + BitVec.ofNat 64 (countType 1#4 (rawsOf recs)) ∧
    t.g.startTime = s.g.startTime

/-- The identity of a connection is set once, both fields together, by the first frame it emits and by nothing else
(44_stats.md R201; 10_state.md R27, R28). -/
def Obligations.IdentityIsSetOnce : Prop :=
  ∀ (cid : Byte) (len : BitVec 32) (s t : State) (c c' : Context) (recs : List Record),
    len.toNat ≤ s.din.length → s.ctx[cid.toNat]? = some c → c.phase = .connected →
    s.bufCap.admits (c.buf.length + len.toNat) → exec (.feed cid len) s = .next t →
    t.out = s.out ++ recs → t.ctx[cid.toNat]? = some c' →
    (c.idSet = true → c'.idSet = true ∧ c'.devIdRaw = c.devIdRaw ∧ c'.chan = c.chan) ∧
    (c.idSet = false → rawsOf recs = [] →
      c'.idSet = false ∧ c'.devIdRaw = c.devIdRaw ∧ c'.chan = c.chan) ∧
    (∀ f fs, c.idSet = false → rawsOf recs = f :: fs →
      c'.idSet = true ∧ c'.devIdRaw = be f 12 6 ∧ c'.chan = be f 18 1)

/-- An empty chunk changes nothing: between commands, `FEED` with LEN 0 only responds `OK` with `val` 0
(43_framer.md R184). -/
def Obligations.EmptyChunkChangesNothing : Prop :=
  ∀ (cid : Byte) (s : State) (c : Context), s.Inv → s.ctx[cid.toNat]? = some c → c.phase = .connected →
    exec (.feed cid 0#32) s = .next { s with
      host := s.host.tail, out := s.out ++ [.rsp 0x02#8 cid .ok 0#64] }

/-- Between commands, a `FEED` of at most `MAX_CHUNK` bytes to an open connection, or of any number where the buffers
have no bound, is never rejected: it responds `OK` (43_framer.md R183; 00_scope.md R8, R9). -/
def Obligations.BoundedChunksNeverOverflow : Prop :=
  ∀ (cid : Byte) (len : BitVec 32) (s : State) (c : Context), s.Inv → s.ctx[cid.toNat]? = some c →
    c.phase = .connected → (∀ m, s.bufCap.maxChunk = some m → len.toNat ≤ m) → len.toNat ≤ s.din.length →
    ∃ (t : State) (recs : List Record) (v : BitVec 64), exec (.feed cid len) s = .next t ∧
      t.out = s.out ++ recs ++ [.rsp 0x02#8 cid .ok v]

/-- Reassembly (43_framer.md R185): well-formed frames, concatenated and fed to an open connection with an empty
buffer in chunks cut anywhere, each of a length LEN can give and none overflowing the buffer, come out exactly once each, in order and
byte-identical, with no condition raised, and the buffer ends empty; and after each `FEED` exactly the frames whose
last byte has been delivered are out. -/
def Obligations.ReassemblyUnderAnyChunking : Prop :=
  ∀ (cid : Byte) (s : State) (c : Context) (frames chunks : List Bytes) (moreHost : List HostEvent) (moreDin : Bytes),
    s.ctx[cid.toNat]? = some c → c.phase = .connected → c.buf = [] →
    (∀ f ∈ frames, wellFormedFrame f) → chunks.flatten = frames.flatten →
    s.host = feedWords cid chunks ++ moreHost → s.din = chunks.flatten ++ moreDin →
    (∀ chunk ∈ chunks, chunk.length < 2 ^ 32) →
    (∀ (k : Nat) (t : State) (ck : Context) (chunk : Bytes), run k s = .next t → t.ctx[cid.toNat]? = some ck →
      chunks[k]? = some chunk → s.bufCap.admits (ck.buf.length + chunk.length)) →
    (∃ (t : State) (recs : List Record) (c' : Context),
      run chunks.length s = .next t ∧ t.host = moreHost ∧ t.din = moreDin ∧ t.out = s.out ++ recs ∧
      recs.filter Record.isFrame = frames.map (frameRecordOf cid) ∧ rawsOf recs = frames ∧
      (∀ r ∈ recs, r.isCond = false) ∧
      t.ctx[cid.toNat]? = some c' ∧ c'.phase = .connected ∧ c'.buf = []) ∧
    (∀ k : Nat, k ≤ chunks.length →
      ∃ (t : State) (recs : List Record) (m : Nat), run k s = .next t ∧ t.out = s.out ++ recs ∧
        rawsOf recs = frames.take m ∧
        (frames.take m).flatten.length ≤ (chunks.take k).flatten.length ∧
        (m < frames.length → (chunks.take k).flatten.length < (frames.take (m + 1)).flatten.length))

/-- While no `BadMagic` is raised only the concatenation of the chunks matters: two `FEED`s and one `FEED` of both
chunks leave the same contexts and statistics and emit the same frames (43_framer.md R186). -/
def Obligations.ChunkBoundaryInvisibleWithoutBadMagic : Prop :=
  ∀ (cid : Byte) (l1 l2 l12 : BitVec 32) (s t1 t2 : State) (k1 k2 rest : Bytes) (c : Context)
    (recs1 recs2 : List Record),
    s.din = k1 ++ (k2 ++ rest) → k1.length = l1.toNat → k2.length = l2.toNat → l12.toNat = l1.toNat + l2.toNat →
    s.ctx[cid.toNat]? = some c → c.phase = .connected → s.bufCap.admits (c.buf.length + l12.toNat) →
    exec (.feed cid l1) s = .next t1 → exec (.feed cid l2) t1 = .next t2 →
    t1.out = s.out ++ recs1 → t2.out = t1.out ++ recs2 →
    (∀ r ∈ recs1, r.isCond = false) → (∀ r ∈ recs2, r.isCond = false) →
    ∃ (t : State) (recs : List Record), exec (.feed cid l12) s = .next t ∧ t.ctx = t2.ctx ∧ t.g = t2.g ∧
      t.din = t2.din ∧ t.out = s.out ++ recs ∧ rawsOf recs = rawsOf recs1 ++ rawsOf recs2

/-- Resynchronisation (43_framer.md R188): with an empty buffer before, a corrupted chunk of at least 34 bytes and then
a chunk that is one valid frame give exactly that one frame; a corrupted chunk of 1 to 33 bytes takes the valid frame
with it, and no frame comes out. In each case the chunks fit the buffer, whatever its capacity (log 2): each by itself
in the first case, in which the first leaves the buffer empty, and both together in the second. -/
def Obligations.ResyncNeedsThirtyFourBytes : Prop :=
  ∀ (cid : Byte) (s : State) (c : Context) (bad f : Bytes) (moreHost : List HostEvent) (moreDin : Bytes),
    s.ctx[cid.toNat]? = some c → c.phase = .connected → c.buf = [] → wellFormedFrame f →
    1 ≤ bad.length → bad.length < 2 ^ 32 → (4 ≤ bad.length → be bad 0 4 ≠ 0x30316364#32) →
    s.host = feedWords cid [bad, f] ++ moreHost → s.din = bad ++ f ++ moreDin →
    (34 ≤ bad.length → s.bufCap.admits bad.length → s.bufCap.admits f.length → ∃ t, run 2 s = .next t ∧
      t.out = s.out ++ [.cond cid .badMagic (BitVec.ofNat 32 bad.length), .rsp 0x02#8 cid .ok 0#64] ++
        [frameRecordOf cid f, .rsp 0x02#8 cid .ok 1#64]) ∧
    (bad.length < 34 → s.bufCap.admits (bad.length + f.length) → ∃ t, run 2 s = .next t ∧
      t.out = s.out ++ [.rsp 0x02#8 cid .ok 0#64] ++
        [.cond cid .badMagic (BitVec.ofNat 32 (bad.length + f.length)), .rsp 0x02#8 cid .ok 0#64])

/-- Frames behind bad bytes in the same chunk are lost: from an empty buffer, a chunk of whole frames and then bad
bytes, whatever follows them, emits those frames, then `BadMagic` with the number of bytes from the bad position to
the end of the chunk (43_framer.md R189, R174). -/
def Obligations.FramesAfterBadMagicAreLost : Prop :=
  ∀ (cid : Byte) (len : BitVec 32) (s : State) (c : Context) (frames : List Bytes) (bad rest : Bytes),
    s.ctx[cid.toNat]? = some c → c.phase = .connected → c.buf = [] → (∀ f ∈ frames, wellFormedFrame f) →
    badHead bad → s.din = frames.flatten ++ bad ++ rest → (frames.flatten ++ bad).length = len.toNat →
    s.bufCap.admits len.toNat →
    ∃ (t : State) (c' : Context), exec (.feed cid len) s = .next t ∧ t.din = rest ∧
      t.ctx[cid.toNat]? = some c' ∧ c'.buf = [] ∧ c'.phase = .connected ∧
      t.out = s.out ++ frames.map (frameRecordOf cid) ++
        [.cond cid .badMagic (BitVec.ofNat 32 bad.length), .rsp 0x02#8 cid .ok (BitVec.ofNat 64 frames.length)]

/-! ## Invariants -/

/-- Every step keeps the invariant between commands: each context closed and all reset, or connected with the buffer
invariant; never decoding or resyncing; the parameters within what the spec allows (43_framer.md R183; 10_state.md R24,
R32; 00_scope.md R8). -/
def Obligations.StepKeepsInvariant : Prop :=
  ∀ s t : State, s.Inv → step s = .next t → t.Inv

/-- The reset state has the invariant, for every number of contexts from 1 to 256, every capacity of at least 65569
bytes or without a bound, and every start time (10_state.md R33; 00_scope.md R8); so does `State.reset`, whose two
contexts, default capacity and start time 0 are the model's choice (logs 1, 2, 3). -/
def Obligations.ResetHasInvariant : Prop :=
  (∀ (n : Nat) (cap : Capacity) (t0 : Time), 1 ≤ n → n ≤ 256 → (∀ k, cap = .bytes k → 65569 ≤ k) →
    (State.resetWith n cap t0).Inv) ∧ State.reset.Inv

/-- Every step keeps every receive buffer within `BUF_CAP` bytes, in any state and at any capacity, and keeps the
capacity; every reset state has the buffers so (10_state.md R23, R25; 20_memory.md R68; 70_reset_and_hazards.md R253). -/
def Obligations.StepKeepsBuffersWithinCapacity : Prop :=
  (∀ (n : Nat) (cap : Capacity) (t0 : Time), memoryWf (State.resetWith n cap t0) = true) ∧
  (∀ s t : State, step s = .next t → t.bufCap = s.bufCap) ∧
  ∀ s t : State, memoryWf s = true → step s = .next t → memoryWf t = true

/-! ## Isolation and output -/

/-- A command touches no context other than its own, no instruction creates or removes a slot or changes a parameter,
only OPEN, FEED and CLOSE write a context, FEED leaves the address key and the connection time of its own context
alone, only FEED writes `G`, the start time and the `host_time` port are written by none, and only FEED and DECODE take
bytes from data-in (10_state.md R35; 60_exceptions.md R234; 30_encoding.md R115). -/
def Obligations.CommandTouchesOnlyItsContext : Prop :=
  ∀ (i : Instr) (s t : State), exec i s = .next t →
    t.ctx.length = s.ctx.length ∧ t.bufCap = s.bufCap ∧
    (∀ k : Nat, k ≠ (echoCid i).toNat → t.ctx[k]? = s.ctx[k]?) ∧
    (writesContext i = false → t.ctx = s.ctx) ∧
    (∀ cid len c c', i = .feed cid len → s.ctx[cid.toNat]? = some c → t.ctx[cid.toNat]? = some c' →
      c'.addrKey = c.addrKey ∧ c'.connTs = c.connTs) ∧
    (writesGlobal i = false → t.g = s.g) ∧
    t.g.startTime = s.g.startTime ∧ t.hostTime = s.hostTime ∧
    ((∀ cid len, i ≠ .feed cid len ∧ i ≠ .decode cid len) → t.din = s.din)

/-- Every command that is carried out or rejected leaves the queue and appends a list of records that ends with exactly
one `RSP`, with `op` and `cid` echoed; nothing already emitted changes (30_encoding.md R109, R114). A command that
still waits for its bytes changes nothing (log 5). -/
def Obligations.EveryCommandEndsWithOneResponse : Prop :=
  ∀ (i : Instr) (s t : State), exec i s = .next t →
    (t = s ∧ ∃ cid len, (i = .feed cid len ∨ i = .decode cid len) ∧ s.din.length < len.toNat) ∨
    (t.host = s.host.tail ∧ ∃ (recs : List Record) (st : Status) (v : BitVec 64),
      t.out = s.out ++ recs ++ [.rsp (echoOp i) (echoCid i) st v] ∧ ∀ r ∈ recs, r.isRsp = false)

/-- What a command on one connection does and emits does not depend on any other connection, nor on `G` unless it
reads it: from two states of equal capacity that agree on its own context (or both lack it) and on its inputs, it emits
the same records and leaves the same context (20_memory.md R70; 60_exceptions.md R234, R238). That equal numbers of
discarded bytes are reported alike, even from 2^32 bytes on, is the model's choice (log 16). -/
def Obligations.ConnectionsDoNotInterfere : Prop :=
  ∀ (i : Instr) (s1 s2 t1 : State) (recs : List Record),
    readsGlobal i = false →
    s1.ctx[(echoCid i).toNat]? = s2.ctx[(echoCid i).toNat]? →
    s1.din = s2.din → s1.hostTime = s2.hostTime → s1.bufCap = s2.bufCap →
    exec i s1 = .next t1 → t1.out = s1.out ++ recs →
    ∃ t2, exec i s2 = .next t2 ∧ t2.out = s2.out ++ recs ∧ t2.din = t1.din ∧
      t2.ctx[(echoCid i).toNat]? = t1.ctx[(echoCid i).toNat]?

/-- `FEED`s of two different connections commute: in either order they leave the same contexts and the same `G`
(60_exceptions.md R238). -/
def Obligations.FeedsOfTwoConnectionsCommute : Prop :=
  ∀ (a b : Byte) (la lb : BitVec 32) (s ta tab tb tba : State) (ka kb rest : Bytes),
    a ≠ b → ka.length = la.toNat → kb.length = lb.toNat →
    exec (.feed a la) { s with din := ka ++ (kb ++ rest) } = .next ta → exec (.feed b lb) ta = .next tab →
    exec (.feed b lb) { s with din := kb ++ (ka ++ rest) } = .next tb → exec (.feed a la) tb = .next tba →
    tab.ctx = tba.ctx ∧ tab.g = tba.g ∧ tab.din = tba.din

/-! ## The assembler's chunks -/

/-- `FEEDS cid, <bytes>, k1, ..., km` puts one `FEED` per size on the command channel, each with its own size as LEN,
and exactly the bytes written on data-in (30_encoding.md R119). -/
def Obligations.FeedsLineCarriesTheBytes : Prop :=
  ∀ (cid : Byte) (bytes : Bytes) (sizes : List Nat), sizes.sum = bytes.length →
    (assembleLine (.feeds cid bytes sizes)).host =
      sizes.map (fun k => .word (encode (.feed cid (BitVec.ofNat 32 k)))) ∧
    (assembleLine (.feeds cid bytes sizes)).din = bytes
end

