-- ==== Sys2Proof/Laws/State.lean ====
section
/-! SUPPORT. What each named update does to each field of a state, a context and the statistics: one lemma per field
per update, each true by unfolding, so that no later proof unfolds a record update. -/

namespace Sys2Proof.Machine

/-! ## States -/

@[simp] theorem retire_bufCap (s : State) : (retire s).bufCap = s.bufCap := rfl
@[simp] theorem retire_ctx (s : State) : (retire s).ctx = s.ctx := rfl
@[simp] theorem retire_g (s : State) : (retire s).g = s.g := rfl
@[simp] theorem retire_hostTime (s : State) : (retire s).hostTime = s.hostTime := rfl
@[simp] theorem retire_host (s : State) : (retire s).host = s.host.tail := rfl
@[simp] theorem retire_din (s : State) : (retire s).din = s.din := rfl
@[simp] theorem retire_out (s : State) : (retire s).out = s.out := rfl

@[simp] theorem emit_bufCap (recs : List Record) (s : State) : (emit recs s).bufCap = s.bufCap := rfl
@[simp] theorem emit_ctx (recs : List Record) (s : State) : (emit recs s).ctx = s.ctx := rfl
@[simp] theorem emit_g (recs : List Record) (s : State) : (emit recs s).g = s.g := rfl
@[simp] theorem emit_hostTime (recs : List Record) (s : State) : (emit recs s).hostTime = s.hostTime := rfl
@[simp] theorem emit_host (recs : List Record) (s : State) : (emit recs s).host = s.host := rfl
@[simp] theorem emit_din (recs : List Record) (s : State) : (emit recs s).din = s.din := rfl
@[simp] theorem emit_out (recs : List Record) (s : State) : (emit recs s).out = s.out ++ recs := rfl

@[simp] theorem writeContext_bufCap (s : State) (cid : Byte) (c : Context) : (writeContext s cid c).bufCap = s.bufCap := rfl
@[simp] theorem writeContext_ctx (s : State) (cid : Byte) (c : Context) : (writeContext s cid c).ctx = s.ctx.set cid.toNat c := rfl
@[simp] theorem writeContext_g (s : State) (cid : Byte) (c : Context) : (writeContext s cid c).g = s.g := rfl
@[simp] theorem writeContext_hostTime (s : State) (cid : Byte) (c : Context) : (writeContext s cid c).hostTime = s.hostTime := rfl
@[simp] theorem writeContext_host (s : State) (cid : Byte) (c : Context) : (writeContext s cid c).host = s.host := rfl
@[simp] theorem writeContext_din (s : State) (cid : Byte) (c : Context) : (writeContext s cid c).din = s.din := rfl
@[simp] theorem writeContext_out (s : State) (cid : Byte) (c : Context) : (writeContext s cid c).out = s.out := rfl

@[simp] theorem resetState_bufCap (s : State) : (resetState s).bufCap = s.bufCap := rfl
@[simp] theorem resetState_ctx (s : State) : (resetState s).ctx = List.replicate s.ctx.length Context.reset := rfl
@[simp] theorem resetState_g (s : State) : (resetState s).g = GlobalStats.reset s.hostTime := rfl
@[simp] theorem resetState_hostTime (s : State) : (resetState s).hostTime = s.hostTime := rfl
@[simp] theorem resetState_host (s : State) : (resetState s).host = s.host := rfl
@[simp] theorem resetState_din (s : State) : (resetState s).din = s.din := rfl
@[simp] theorem resetState_out (s : State) : (resetState s).out = s.out := rfl

@[simp] theorem setTime_bufCap (v : Time) (s : State) : (setTime v s).bufCap = s.bufCap := rfl
@[simp] theorem setTime_ctx (v : Time) (s : State) : (setTime v s).ctx = s.ctx := rfl
@[simp] theorem setTime_g (v : Time) (s : State) : (setTime v s).g = s.g := rfl
@[simp] theorem setTime_hostTime (v : Time) (s : State) : (setTime v s).hostTime = v := rfl
@[simp] theorem setTime_host (v : Time) (s : State) : (setTime v s).host = s.host := rfl
@[simp] theorem setTime_din (v : Time) (s : State) : (setTime v s).din = s.din := rfl
@[simp] theorem setTime_out (v : Time) (s : State) : (setTime v s).out = s.out := rfl

@[simp] theorem placeWord_bufCap (s : State) (w : InputWord) : (placeWord s w).bufCap = s.bufCap := rfl
@[simp] theorem placeWord_ctx (s : State) (w : InputWord) : (placeWord s w).ctx = s.ctx := rfl
@[simp] theorem placeWord_g (s : State) (w : InputWord) : (placeWord s w).g = s.g := rfl
@[simp] theorem placeWord_hostTime (s : State) (w : InputWord) : (placeWord s w).hostTime = s.hostTime := rfl
@[simp] theorem placeWord_host (s : State) (w : InputWord) : (placeWord s w).host = .word w :: s.host := rfl
@[simp] theorem placeWord_din (s : State) (w : InputWord) : (placeWord s w).din = zeroOperands w ++ s.din := rfl
@[simp] theorem placeWord_out (s : State) (w : InputWord) : (placeWord s w).out = s.out := rfl

/-! ## Contexts -/

@[simp] theorem appendBuf_phase (chunk : Bytes) (c : Context) : (appendBuf chunk c).phase = c.phase := rfl
@[simp] theorem appendBuf_buf (chunk : Bytes) (c : Context) : (appendBuf chunk c).buf = c.buf ++ chunk := rfl
@[simp] theorem appendBuf_pktCnt (chunk : Bytes) (c : Context) : (appendBuf chunk c).pktCnt = c.pktCnt := rfl
@[simp] theorem appendBuf_byteCnt (chunk : Bytes) (c : Context) : (appendBuf chunk c).byteCnt = c.byteCnt := rfl
@[simp] theorem appendBuf_idSet (chunk : Bytes) (c : Context) : (appendBuf chunk c).idSet = c.idSet := rfl
@[simp] theorem appendBuf_devIdRaw (chunk : Bytes) (c : Context) : (appendBuf chunk c).devIdRaw = c.devIdRaw := rfl
@[simp] theorem appendBuf_chan (chunk : Bytes) (c : Context) : (appendBuf chunk c).chan = c.chan := rfl
@[simp] theorem appendBuf_addrKey (chunk : Bytes) (c : Context) : (appendBuf chunk c).addrKey = c.addrKey := rfl
@[simp] theorem appendBuf_connTs (chunk : Bytes) (c : Context) : (appendBuf chunk c).connTs = c.connTs := rfl

@[simp] theorem dropFront_phase (n : Nat) (c : Context) : (dropFront n c).phase = c.phase := rfl
@[simp] theorem dropFront_buf (n : Nat) (c : Context) : (dropFront n c).buf = c.buf.drop n := rfl
@[simp] theorem dropFront_pktCnt (n : Nat) (c : Context) : (dropFront n c).pktCnt = c.pktCnt := rfl
@[simp] theorem dropFront_byteCnt (n : Nat) (c : Context) : (dropFront n c).byteCnt = c.byteCnt := rfl
@[simp] theorem dropFront_idSet (n : Nat) (c : Context) : (dropFront n c).idSet = c.idSet := rfl
@[simp] theorem dropFront_devIdRaw (n : Nat) (c : Context) : (dropFront n c).devIdRaw = c.devIdRaw := rfl
@[simp] theorem dropFront_chan (n : Nat) (c : Context) : (dropFront n c).chan = c.chan := rfl
@[simp] theorem dropFront_addrKey (n : Nat) (c : Context) : (dropFront n c).addrKey = c.addrKey := rfl
@[simp] theorem dropFront_connTs (n : Nat) (c : Context) : (dropFront n c).connTs = c.connTs := rfl

@[simp] theorem clearBuf_phase (c : Context) : (clearBuf c).phase = c.phase := rfl
@[simp] theorem clearBuf_buf (c : Context) : (clearBuf c).buf = [] := rfl
@[simp] theorem clearBuf_pktCnt (c : Context) : (clearBuf c).pktCnt = c.pktCnt := rfl
@[simp] theorem clearBuf_byteCnt (c : Context) : (clearBuf c).byteCnt = c.byteCnt := rfl
@[simp] theorem clearBuf_idSet (c : Context) : (clearBuf c).idSet = c.idSet := rfl
@[simp] theorem clearBuf_devIdRaw (c : Context) : (clearBuf c).devIdRaw = c.devIdRaw := rfl
@[simp] theorem clearBuf_chan (c : Context) : (clearBuf c).chan = c.chan := rfl
@[simp] theorem clearBuf_addrKey (c : Context) : (clearBuf c).addrKey = c.addrKey := rfl
@[simp] theorem clearBuf_connTs (c : Context) : (clearBuf c).connTs = c.connTs := rfl

@[simp] theorem setPhase_phase (p : Phase) (c : Context) : (setPhase p c).phase = p := rfl
@[simp] theorem setPhase_buf (p : Phase) (c : Context) : (setPhase p c).buf = c.buf := rfl
@[simp] theorem setPhase_pktCnt (p : Phase) (c : Context) : (setPhase p c).pktCnt = c.pktCnt := rfl
@[simp] theorem setPhase_byteCnt (p : Phase) (c : Context) : (setPhase p c).byteCnt = c.byteCnt := rfl
@[simp] theorem setPhase_idSet (p : Phase) (c : Context) : (setPhase p c).idSet = c.idSet := rfl
@[simp] theorem setPhase_devIdRaw (p : Phase) (c : Context) : (setPhase p c).devIdRaw = c.devIdRaw := rfl
@[simp] theorem setPhase_chan (p : Phase) (c : Context) : (setPhase p c).chan = c.chan := rfl
@[simp] theorem setPhase_addrKey (p : Phase) (c : Context) : (setPhase p c).addrKey = c.addrKey := rfl
@[simp] theorem setPhase_connTs (p : Phase) (c : Context) : (setPhase p c).connTs = c.connTs := rfl

@[simp] theorem resync_phase (c : Context) : (resync c).phase = .resyncing := rfl
@[simp] theorem resync_buf (c : Context) : (resync c).buf = [] := rfl
@[simp] theorem resync_pktCnt (c : Context) : (resync c).pktCnt = c.pktCnt := rfl
@[simp] theorem resync_byteCnt (c : Context) : (resync c).byteCnt = c.byteCnt := rfl
@[simp] theorem resync_idSet (c : Context) : (resync c).idSet = c.idSet := rfl
@[simp] theorem resync_devIdRaw (c : Context) : (resync c).devIdRaw = c.devIdRaw := rfl
@[simp] theorem resync_chan (c : Context) : (resync c).chan = c.chan := rfl
@[simp] theorem resync_addrKey (c : Context) : (resync c).addrKey = c.addrKey := rfl
@[simp] theorem resync_connTs (c : Context) : (resync c).connTs = c.connTs := rfl

@[simp] theorem resume_phase (c : Context) : (resume c).phase = .connected := rfl
@[simp] theorem resume_buf (c : Context) : (resume c).buf = c.buf := rfl
@[simp] theorem resume_pktCnt (c : Context) : (resume c).pktCnt = c.pktCnt := rfl
@[simp] theorem resume_byteCnt (c : Context) : (resume c).byteCnt = c.byteCnt := rfl
@[simp] theorem resume_idSet (c : Context) : (resume c).idSet = c.idSet := rfl
@[simp] theorem resume_devIdRaw (c : Context) : (resume c).devIdRaw = c.devIdRaw := rfl
@[simp] theorem resume_chan (c : Context) : (resume c).chan = c.chan := rfl
@[simp] theorem resume_addrKey (c : Context) : (resume c).addrKey = c.addrKey := rfl
@[simp] theorem resume_connTs (c : Context) : (resume c).connTs = c.connTs := rfl

/-! ## Recording the identity, and the per-frame actions -/

@[simp] theorem recordIdentity_phase (dev : BitVec 48) (ch : Byte) (c : Context) :
    (recordIdentity dev ch c).phase = c.phase := by
  unfold recordIdentity; split <;> simp_all

@[simp] theorem recordIdentity_buf (dev : BitVec 48) (ch : Byte) (c : Context) :
    (recordIdentity dev ch c).buf = c.buf := by
  unfold recordIdentity; split <;> simp_all

@[simp] theorem recordIdentity_pktCnt (dev : BitVec 48) (ch : Byte) (c : Context) :
    (recordIdentity dev ch c).pktCnt = c.pktCnt := by
  unfold recordIdentity; split <;> simp_all

@[simp] theorem recordIdentity_byteCnt (dev : BitVec 48) (ch : Byte) (c : Context) :
    (recordIdentity dev ch c).byteCnt = c.byteCnt := by
  unfold recordIdentity; split <;> simp_all

@[simp] theorem recordIdentity_idSet (dev : BitVec 48) (ch : Byte) (c : Context) :
    (recordIdentity dev ch c).idSet = true := by
  unfold recordIdentity; split <;> simp_all

@[simp] theorem recordIdentity_devIdRaw (dev : BitVec 48) (ch : Byte) (c : Context) :
    (recordIdentity dev ch c).devIdRaw = if c.idSet then c.devIdRaw else dev := by
  unfold recordIdentity; split <;> simp_all

@[simp] theorem recordIdentity_chan (dev : BitVec 48) (ch : Byte) (c : Context) :
    (recordIdentity dev ch c).chan = if c.idSet then c.chan else ch := by
  unfold recordIdentity; split <;> simp_all

@[simp] theorem recordIdentity_addrKey (dev : BitVec 48) (ch : Byte) (c : Context) :
    (recordIdentity dev ch c).addrKey = c.addrKey := by
  unfold recordIdentity; split <;> simp_all

@[simp] theorem recordIdentity_connTs (dev : BitVec 48) (ch : Byte) (c : Context) :
    (recordIdentity dev ch c).connTs = c.connTs := by
  unfold recordIdentity; split <;> simp_all

@[simp] theorem onFrame_phase (dev : BitVec 48) (ch : Byte) (n : Nat) (c : Context) :
    (onFrame dev ch n c).phase = c.phase := by
  simp [onFrame]

@[simp] theorem onFrame_buf (dev : BitVec 48) (ch : Byte) (n : Nat) (c : Context) :
    (onFrame dev ch n c).buf = c.buf := by
  simp [onFrame]

@[simp] theorem onFrame_pktCnt (dev : BitVec 48) (ch : Byte) (n : Nat) (c : Context) :
    (onFrame dev ch n c).pktCnt = c.pktCnt + 1#64 := by
  simp [onFrame]

@[simp] theorem onFrame_byteCnt (dev : BitVec 48) (ch : Byte) (n : Nat) (c : Context) :
    (onFrame dev ch n c).byteCnt = c.byteCnt + BitVec.ofNat 64 n := by
  simp [onFrame]

@[simp] theorem onFrame_idSet (dev : BitVec 48) (ch : Byte) (n : Nat) (c : Context) :
    (onFrame dev ch n c).idSet = true := by
  simp [onFrame]

@[simp] theorem onFrame_devIdRaw (dev : BitVec 48) (ch : Byte) (n : Nat) (c : Context) :
    (onFrame dev ch n c).devIdRaw = if c.idSet then c.devIdRaw else dev := by
  simp [onFrame]

@[simp] theorem onFrame_chan (dev : BitVec 48) (ch : Byte) (n : Nat) (c : Context) :
    (onFrame dev ch n c).chan = if c.idSet then c.chan else ch := by
  simp [onFrame]

@[simp] theorem onFrame_addrKey (dev : BitVec 48) (ch : Byte) (n : Nat) (c : Context) :
    (onFrame dev ch n c).addrKey = c.addrKey := by
  simp [onFrame]

@[simp] theorem onFrame_connTs (dev : BitVec 48) (ch : Byte) (n : Nat) (c : Context) :
    (onFrame dev ch n c).connTs = c.connTs := by
  simp [onFrame]

@[simp] theorem recordFrame_startTime (dt : BitVec 4) (n : Nat) (g : GlobalStats) :
    (recordFrame dt n g).startTime = g.startTime := rfl

@[simp] theorem recordFrame_totalPkts (dt : BitVec 4) (n : Nat) (g : GlobalStats) :
    (recordFrame dt n g).totalPkts = g.totalPkts + 1#64 := rfl

@[simp] theorem recordFrame_totalBytes (dt : BitVec 4) (n : Nat) (g : GlobalStats) :
    (recordFrame dt n g).totalBytes = g.totalBytes + BitVec.ofNat 64 n := rfl

@[simp] theorem recordFrame_iframeCnt (dt : BitVec 4) (n : Nat) (g : GlobalStats) :
    (recordFrame dt n g).iframeCnt = if dt = 0#4 then g.iframeCnt + 1#64 else g.iframeCnt := rfl

@[simp] theorem recordFrame_pframeCnt (dt : BitVec 4) (n : Nat) (g : GlobalStats) :
    (recordFrame dt n g).pframeCnt = if dt = 1#4 then g.pframeCnt + 1#64 else g.pframeCnt := rfl

end Sys2Proof.Machine
end

