-- ==== Sys2Proof/Laws/Bytes.lean ====
section
/-! SUPPORT. Reading and writing byte sequences: big-endian numbers, and the windows of a sequence. -/

namespace Sys2Proof.Machine

theorem beNat_foldl (s : Bytes) (a : Nat) :
    s.foldl (fun acc b => acc * 256 + b.toNat) a = a * 256 ^ s.length + beNat s := by
  induction s generalizing a with
  | nil => simp [beNat]
  | cons b s ih =>
    simp only [List.foldl_cons, List.length_cons, beNat]
    rw [ih, ih (0 * 256 + b.toNat), pow_succ]
    ring

@[simp] theorem beNat_nil : beNat [] = 0 := rfl

theorem beNat_cons (b : Byte) (s : Bytes) : beNat (b :: s) = b.toNat * 256 ^ s.length + beNat s := by
  conv_lhs => rw [beNat, List.foldl_cons, beNat_foldl]
  rw [Nat.zero_mul, Nat.zero_add]

theorem beNat_append (s t : Bytes) : beNat (s ++ t) = beNat s * 256 ^ t.length + beNat t := by
  unfold beNat
  rw [List.foldl_append, beNat_foldl]
  rfl

theorem beNat_lt (s : Bytes) : beNat s < 256 ^ s.length := by
  induction s with
  | nil => simp
  | cons b s ih =>
    have hb := b.isLt
    rw [beNat_cons, List.length_cons, pow_succ]
    nlinarith

@[simp] theorem bigEndian_length {n : Nat} (k : Nat) (v : BitVec n) : (bigEndian k v).length = k := by
  simp [bigEndian]

theorem bigEndian_succ {n : Nat} (k : Nat) (v : BitVec n) :
    bigEndian (k + 1) v = bits v (8 * k) 8 :: bigEndian k v := by
  unfold bigEndian
  rw [List.range_succ_eq_map, List.map_cons, List.map_map]
  congr 1
  apply List.map_congr_left
  intro i _
  simp only [Function.comp]
  congr 2
  omega

theorem beNat_bigEndian {n : Nat} (k : Nat) (v : BitVec n) : beNat (bigEndian k v) = v.toNat % 256 ^ k := by
  induction k with
  | zero => simp [bigEndian, Nat.mod_one]
  | succ k ih =>
    rw [bigEndian_succ, beNat_cons, ih, bigEndian_length]
    simp only [bits, BitVec.extractLsb'_toNat, Nat.shiftRight_eq_div_pow]
    have h256 : (256 : Nat) ^ k = 2 ^ (8 * k) := by rw [pow_mul]; norm_num
    have : v.toNat % 256 ^ (k + 1) = v.toNat % 256 ^ k + 256 ^ k * (v.toNat / 256 ^ k % 256) := by
      rw [pow_succ, Nat.mod_mul]
    rw [this, ← h256]
    ring

/-- A window inside the first part of a concatenation. -/
theorem be_append_left (s t : Bytes) (off n : Nat) (h : off + n ≤ s.length) : be (s ++ t) off n = be s off n := by
  unfold be
  rw [List.drop_append_of_le_length (by omega), List.take_append_of_le_length (by simp; omega)]

/-- The window that is exactly the middle part. -/
theorem be_middle (a x b : Bytes) (off n : Nat) (ha : a.length = off) (hx : x.length = n) :
    be (a ++ (x ++ b)) off n = BitVec.ofNat (8 * n) (beNat x) := by
  unfold be
  subst ha hx
  simp

theorem be_take (s : Bytes) (k off n : Nat) (h : off + n ≤ k) : be (s.take k) off n = be s off n := by
  unfold be
  rw [List.drop_take, List.take_take, Nat.min_eq_left (by omega)]

end Sys2Proof.Machine
end

