-- ==== Sys2Proof/Laws/Ops.lean ====
section
/-! SUPPORT. What each shared operation can do, said once: responding, taking data, selecting a context, checking
the capacity, and the Frame Decoder's outcomes. -/

namespace Sys2Proof.Machine

/-- The one form every completed command has. -/
theorem respond_eq (s : State) (recs : List Record) (op cid : Byte) (st : Status) (v : BitVec 64) :
    respond s recs op cid st v =
      .next { s with host := s.host.tail, out := s.out ++ (recs ++ [.rsp op cid st v]) } := rfl

theorem reject_eq (s : State) (op cid : Byte) (st : Status) :
    reject s op cid st = .next { s with host := s.host.tail, out := s.out ++ [.rsp op cid st 0#64] } := rfl

theorem takeDin_wait {s : State} {len : BitVec 32} (k : Bytes → State → Result) (h : s.din.length < len.toNat) :
    takeDin s len k = .next s := if_pos h

theorem takeDin_ready {s : State} {len : BitVec 32} {f rest : Bytes} (k : Bytes → State → Result)
    (hd : s.din = f ++ rest) (hf : f.length = len.toNat) :
    takeDin s len k = k f { s with din := rest } := by
  unfold takeDin
  rw [if_neg (by rw [hd, List.length_append]; omega), hd, ← hf]
  simp

/-- Taking data either waits, with nothing changed, or goes on with the bytes taken. -/
theorem takeDin_cases (s : State) (len : BitVec 32) (k : Bytes → State → Result) :
    (s.din.length < len.toNat ∧ takeDin s len k = .next s) ∨
    ∃ f rest, s.din = f ++ rest ∧ f.length = len.toNat ∧ takeDin s len k = k f { s with din := rest } := by
  by_cases h : s.din.length < len.toNat
  · exact .inl ⟨h, takeDin_wait k h⟩
  · refine .inr ⟨s.din.take len.toNat, s.din.drop len.toNat, (List.take_append_drop _ _).symm,
      by simp; omega, ?_⟩
    exact if_neg h

theorem withContext_none {s : State} {op cid : Byte} (k : Context → Result) (h : s.ctx.length ≤ cid.toNat) :
    withContext s op cid k = reject s op cid .badOperand := by
  simp [withContext, readContext, List.getElem?_eq_none h]

theorem withContext_some {s : State} {op cid : Byte} {c : Context} (k : Context → Result)
    (h : s.ctx[cid.toNat]? = some c) : withContext s op cid k = k c := by
  simp [withContext, readContext, h]

theorem withOpenContext_none {s : State} {op cid : Byte} (k : Context → Result) (h : s.ctx.length ≤ cid.toNat) :
    withOpenContext s op cid k = reject s op cid .badOperand := withContext_none _ h

theorem withOpenContext_connected {s : State} {op cid : Byte} {c : Context} (k : Context → Result)
    (h : s.ctx[cid.toNat]? = some c) (hp : c.phase = .connected) : withOpenContext s op cid k = k c := by
  simp [withOpenContext, withContext_some _ h, hp]

theorem withOpenContext_other {s : State} {op cid : Byte} {c : Context} (k : Context → Result)
    (h : s.ctx[cid.toNat]? = some c) (hp : c.phase ≠ .connected) :
    withOpenContext s op cid k = reject s op cid .notOpen := by
  simp [withOpenContext, withContext_some _ h, hp]

/-! ## The capacity -/

@[simp] theorem admits_bytes (k n : Nat) : (Capacity.bytes k).admits n = decide (n ≤ k) := rfl
@[simp] theorem admits_unbounded (n : Nat) : Capacity.unbounded.admits n = true := rfl
@[simp] theorem valid_bytes (k : Nat) : (Capacity.bytes k).valid = decide (65569 ≤ k) := rfl
@[simp] theorem valid_unbounded : Capacity.unbounded.valid = true := rfl
@[simp] theorem maxChunk_bytes (k : Nat) : (Capacity.bytes k).maxChunk = some (k - 65568) := rfl
@[simp] theorem maxChunk_unbounded : Capacity.unbounded.maxChunk = none := rfl

/-- What may hold `n` bytes may hold fewer. -/
theorem admits_mono {cap : Capacity} {m n : Nat} (h : cap.admits n = true) (hmn : m ≤ n) : cap.admits m = true := by
  cases cap with
  | bytes k => simp at h ⊢; omega
  | unbounded => rfl

/-- Every capacity the spec allows holds a whole frame. -/
theorem admits_of_valid {cap : Capacity} {n : Nat} (h : cap.valid = true) (hn : n ≤ 65569) : cap.admits n = true :=
  admits_mono (n := Config.maxFrame) h hn

/-- A chunk within `MAX_CHUNK` fits behind the most bytes a buffer holds between commands. -/
theorem admits_add_chunk {cap : Capacity} {m n : Nat} (hv : cap.valid = true) (hm : m ≤ 65568)
    (hn : ∀ k, cap.maxChunk = some k → n ≤ k) : cap.admits (m + n) = true := by
  cases cap with
  | bytes k => simp at hv hn ⊢; omega
  | unbounded => rfl

theorem withRoom_fits {s : State} {op cid : Byte} {n : Nat} (k : Result) (h : s.bufCap.admits n = true) :
    withRoom s op cid n k = k := if_pos h

theorem withRoom_full {s : State} {op cid : Byte} {n : Nat} (k : Result) (h : s.bufCap.admits n = false) :
    withRoom s op cid n k = reject s op cid .bufferOverflow := if_neg (by simp [h])

/-- A length that fits its field is reported as it is. -/
theorem condInfo_of_lt {n : Nat} (h : n < 2 ^ 32) : condInfo n = BitVec.ofNat 32 n := if_pos h

theorem condInfo_toNat {n : Nat} (h : n < 2 ^ 32) : (condInfo n).toNat = n := by
  rw [condInfo_of_lt h, BitVec.toNat_ofNat, Nat.mod_eq_of_lt h]

/-! ## The Frame Decoder -/

theorem headerFields_length_field (f : Bytes) : (headerFields f).declaredPayloadLength = be f 32 2 := rfl

theorem decodeFrame_short {f : Bytes} (h : f.length < 34) : decodeFrame f = .fail .bufferTooShort := if_pos h

theorem decodeFrame_badMagic {f : Bytes} (h : 34 ≤ f.length) (hm : be f 0 4 ≠ Config.magic) :
    decodeFrame f = .fail .badMagic := by
  simp only [decodeFrame, Config.hdrLen]
  rw [if_neg (by omega), if_pos hm]

theorem decodeFrame_ok {f : Bytes} (h : 34 ≤ f.length) (hm : be f 0 4 = Config.magic) :
    decodeFrame f = .ok ⟨headerFields f, f.drop 34⟩ (f.length - 34 != (be f 32 2).toNat) := by
  simp only [decodeFrame, Config.hdrLen]
  rw [if_neg (by omega), if_neg (by simp [hm])]
  rfl

/-- On a well-formed frame the decoder neither fails nor reports a mismatch (42_decode.md R155). -/
theorem decodeFrame_wellFormed {f : Bytes} (h : wellFormedFrame f) :
    decodeFrame f = .ok ⟨headerFields f, f.drop 34⟩ false := by
  obtain ⟨hl, hm, hn⟩ := h
  rw [decodeFrame_ok hl hm]
  congr 1
  simp; omega

end Sys2Proof.Machine
end

