-- ==== Sys2Proof/Laws/Framer.lean ====
section
/-! SUPPORT. The extraction loop said once: every buffer is whole frames followed by a tail the loop stops at, and
the loop counts exactly those frames and then keeps or clears the tail (43_framer.md R171 to R178). -/

namespace Sys2Proof.Machine

/-! ## Cutting a buffer -/

/-- A tail at which the loop stops: kept (steps 1 and 4) or cleared (step 2). -/
abbrev finalTail (b : Bytes) : Prop := bufferInv b ∨ badHead b

theorem bufferInv_not_badHead {b : Bytes} (h : bufferInv b) : ¬ badHead b := by
  rintro ⟨hl, hm⟩
  rcases h with h | ⟨h, _⟩
  · omega
  · exact hm h

/-- A buffer the loop goes on with begins with a whole frame. -/
theorem cut_head {b : Bytes} (hl : 34 ≤ b.length) (hm : be b 0 4 = Config.magic)
    (hn : 34 + (be b 32 2).toNat ≤ b.length) : wellFormedFrame (b.take (34 + (be b 32 2).toNat)) := by
  refine ⟨by simp; omega, ?_, ?_⟩
  · rw [be_take _ _ _ _ (by omega), hm]
  · rw [be_take _ _ _ _ (by omega), List.length_take]; omega

/-- Every buffer is whole frames followed by a tail at which the loop stops. -/
theorem exists_cut (b : Bytes) :
    ∃ (fs : List Bytes) (tail : Bytes), b = fs.flatten ++ tail ∧ (∀ f ∈ fs, wellFormedFrame f) ∧ finalTail tail := by
  induction hn : b.length using Nat.strongRecOn generalizing b with
  | ind n ih =>
    by_cases hl : b.length < 34
    · exact ⟨[], b, by simp, by simp, .inl (.inl hl)⟩
    by_cases hm : be b 0 4 = Config.magic
    · by_cases hf : b.length < 34 + (be b 32 2).toNat
      · exact ⟨[], b, by simp, by simp, .inl (.inr ⟨hm, hf⟩)⟩
      · have hw := cut_head (b := b) (by omega) hm (by omega)
        obtain ⟨fs, tail, hb, hfs, ht⟩ :=
          ih (b.drop (34 + (be b 32 2).toNat)).length (by simp; omega) (b.drop (34 + (be b 32 2).toNat)) rfl
        refine ⟨b.take (34 + (be b 32 2).toNat) :: fs, tail, ?_, ?_, ht⟩
        · rw [List.flatten_cons, List.append_assoc, ← hb, List.take_append_drop]
        · intro f hmem
          rcases List.mem_cons.1 hmem with rfl | hmem
          · exact hw
          · exact hfs f hmem
    · exact ⟨[], b, by simp, by simp, .inr ⟨by omega, hm⟩⟩

/-- Whole frames take at least 34 bytes each. -/
theorem length_flatten_frames {fs : List Bytes} (h : ∀ f ∈ fs, wellFormedFrame f) :
    fs.length * 34 ≤ fs.flatten.length := by
  induction fs with
  | nil => simp
  | cons f fs ih =>
    have h1 := (h f (by simp)).1
    have h2 := ih fun x hx => h x (by simp [hx])
    simp only [List.length_cons, List.flatten_cons, List.length_append]
    omega

/-! ## The loop -/

/-- Counting one frame: what one pass of the loop adds to the context, the statistics and the records, the buffer
apart. -/
def countFrame (cid : Byte) (p : Pass) (f : Bytes) : Pass where
  ctx := onFrame (be f 12 6) (be f 18 1) f.length p.ctx
  g := recordFrame (headerFields f).dataType f.length p.g
  recs := p.recs ++ [frameRecordOf cid f]
  nframes := p.nframes + 1

/-- Counting frames in order. -/
def countFrames (cid : Byte) (p : Pass) (fs : List Bytes) : Pass := fs.foldl (countFrame cid) p

@[simp] theorem countFrames_nil (cid : Byte) (p : Pass) : countFrames cid p [] = p := rfl

@[simp] theorem countFrames_cons (cid : Byte) (p : Pass) (f : Bytes) (fs : List Bytes) :
    countFrames cid p (f :: fs) = countFrames cid (countFrame cid p f) fs := rfl

theorem countFrames_append (cid : Byte) (p : Pass) (fs gs : List Bytes) :
    countFrames cid p (fs ++ gs) = countFrames cid (countFrames cid p fs) gs := List.foldl_append

/-- The pass with another buffer. -/
def withBuf (b : Bytes) (p : Pass) : Pass := { p with ctx := { p.ctx with buf := b } }

@[simp] theorem withBuf_withBuf (a b : Bytes) (p : Pass) : withBuf a (withBuf b p) = withBuf a p := rfl
@[simp] theorem withBuf_buf (b : Bytes) (p : Pass) : (withBuf b p).ctx.buf = b := rfl
@[simp] theorem withBuf_phase (b : Bytes) (p : Pass) : (withBuf b p).ctx.phase = p.ctx.phase := rfl
@[simp] theorem withBuf_recs (b : Bytes) (p : Pass) : (withBuf b p).recs = p.recs := rfl
@[simp] theorem withBuf_g (b : Bytes) (p : Pass) : (withBuf b p).g = p.g := rfl
@[simp] theorem withBuf_nframes (b : Bytes) (p : Pass) : (withBuf b p).nframes = p.nframes := rfl

theorem context_eta (c d : Context) (h1 : c.phase = d.phase) (h2 : c.buf = d.buf) (h3 : c.pktCnt = d.pktCnt)
    (h4 : c.byteCnt = d.byteCnt) (h5 : c.idSet = d.idSet) (h6 : c.devIdRaw = d.devIdRaw) (h7 : c.chan = d.chan)
    (h8 : c.addrKey = d.addrKey) (h9 : c.connTs = d.connTs) : c = d := by
  cases c; cases d; simp_all

theorem pass_eta (p q : Pass) (h1 : p.ctx = q.ctx) (h2 : p.g = q.g) (h3 : p.recs = q.recs)
    (h4 : p.nframes = q.nframes) : p = q := by
  cases p; cases q; simp_all

theorem countFrame_withBuf (cid : Byte) (b f : Bytes) (p : Pass) :
    countFrame cid (withBuf b p) f = withBuf b (countFrame cid p f) := by
  unfold countFrame withBuf
  congr 1
  apply context_eta <;> simp

theorem countFrames_withBuf (cid : Byte) (b : Bytes) (fs : List Bytes) (p : Pass) :
    countFrames cid (withBuf b p) fs = withBuf b (countFrames cid p fs) := by
  induction fs generalizing p with
  | nil => rfl
  | cons f fs ih => rw [countFrames_cons, countFrame_withBuf, ih, countFrames_cons]

@[simp] theorem countFrame_phase (cid : Byte) (p : Pass) (f : Bytes) :
    (countFrame cid p f).ctx.phase = p.ctx.phase := by simp [countFrame]

@[simp] theorem countFrames_phase (cid : Byte) (p : Pass) (fs : List Bytes) :
    (countFrames cid p fs).ctx.phase = p.ctx.phase := by
  induction fs generalizing p with
  | nil => rfl
  | cons f fs ih => simp [ih]

/-- What one pass does with a whole frame. -/
theorem deliverSlice_wellFormed {cid : Byte} {f : Bytes} {p : Pass} (h : wellFormedFrame f) :
    deliverSlice cid f p =
      { countFrame cid p f with ctx := resume (onFrame (be f 12 6) (be f 18 1) f.length p.ctx) } := by
  unfold deliverSlice
  rw [decodeFrame_wellFormed h]
  rfl

/-- The loop stops at a kept tail without changing anything. -/
theorem extract_keep (cid : Byte) (fuel : Nat) (p : Pass) (h : bufferInv p.ctx.buf) : extract cid fuel p = p := by
  cases fuel with
  | zero => rfl
  | succ n =>
    simp only [extract, Config.hdrLen, Config.offLen]
    by_cases hl : p.ctx.buf.length < 34
    · rw [if_pos hl]
    · obtain ⟨hm, hf⟩ := h.resolve_left hl
      rw [if_neg hl, if_neg (by simp [hm]), if_pos hf]

/-- The loop clears a tail with a wrong magic and raises `BadMagic` with its length. -/
theorem extract_clear (cid : Byte) (fuel : Nat) (p : Pass) (hp : p.ctx.phase = .connected) (h : badHead p.ctx.buf) :
    extract cid (fuel + 1) p =
      { withBuf [] p with recs := p.recs ++ [.cond cid .badMagic (condInfo p.ctx.buf.length)] } := by
  obtain ⟨hl, hm⟩ := h
  simp only [extract, Config.hdrLen]
  rw [if_neg (by omega), if_pos hm]
  unfold withBuf raiseCond
  congr 1
  apply context_eta <;> simp [hp]

/-- The loop counts a whole frame at the head and goes on with the rest. -/
theorem extract_frame (cid : Byte) (fuel : Nat) (p : Pass) (f rest : Bytes) (hp : p.ctx.phase = .connected)
    (hb : p.ctx.buf = f ++ rest) (h : wellFormedFrame f) :
    extract cid (fuel + 1) p = extract cid fuel (withBuf rest (countFrame cid p f)) := by
  obtain ⟨hl, hm, hn⟩ := h
  have h32 : be p.ctx.buf 32 2 = be f 32 2 := by rw [hb, be_append_left _ _ _ _ (by omega)]
  have h0 : be p.ctx.buf 0 4 = Config.magic := by rw [hb, be_append_left _ _ _ _ (by omega), hm]
  have hlen : p.ctx.buf.length = f.length + rest.length := by rw [hb, List.length_append]
  simp only [extract, Config.hdrLen, Config.offLen]
  rw [if_neg (by omega), if_neg (by simp [h0]), h32, ← hn, if_neg (by omega)]
  congr 1
  have ht : p.ctx.buf.take f.length = f := by rw [hb]; simp
  have hd : p.ctx.buf.drop f.length = rest := by rw [hb]; simp
  rw [ht, deliverSlice_wellFormed ⟨hl, hm, hn⟩]
  refine pass_eta _ _ ?_ rfl rfl rfl
  apply context_eta <;> simp [withBuf, countFrame, hp, hd] <;> rfl

/-- The loop on whole frames followed by a kept tail. -/
theorem extract_cut_keep (cid : Byte) (fs : List Bytes) (tail : Bytes) (hfs : ∀ f ∈ fs, wellFormedFrame f)
    (ht : bufferInv tail) (fuel : Nat) (p : Pass) (hp : p.ctx.phase = .connected)
    (hb : p.ctx.buf = fs.flatten ++ tail) (hfuel : fs.length ≤ fuel) :
    extract cid fuel p = withBuf tail (countFrames cid p fs) := by
  induction fs generalizing fuel p with
  | nil =>
    have hb' : p.ctx.buf = tail := by simpa using hb
    rw [extract_keep cid fuel p (hb' ▸ ht), countFrames_nil, ← hb']
    rfl
  | cons f fs ih =>
    cases fuel with
    | zero => simp at hfuel
    | succ fuel =>
      rw [extract_frame cid fuel p f (fs.flatten ++ tail) hp (by simpa using hb) (hfs f (by simp)),
        ih (fun x hx => hfs x (by simp [hx])) fuel _ (by simpa using hp) rfl (by simpa using hfuel),
        countFrames_withBuf, withBuf_withBuf, countFrames_cons]

/-- The loop on whole frames followed by a tail with a wrong magic. -/
theorem extract_cut_clear (cid : Byte) (fs : List Bytes) (tail : Bytes) (hfs : ∀ f ∈ fs, wellFormedFrame f)
    (ht : badHead tail) (fuel : Nat) (p : Pass) (hp : p.ctx.phase = .connected)
    (hb : p.ctx.buf = fs.flatten ++ tail) (hfuel : fs.length < fuel) :
    extract cid fuel p =
      { withBuf [] (countFrames cid p fs) with
        recs := (countFrames cid p fs).recs ++ [.cond cid .badMagic (condInfo tail.length)] } := by
  induction fs generalizing fuel p with
  | nil =>
    have hb' : p.ctx.buf = tail := by simpa using hb
    cases fuel with
    | zero => simp at hfuel
    | succ fuel =>
      rw [extract_clear cid fuel p hp (hb' ▸ ht), hb']
      rfl
  | cons f fs ih =>
    cases fuel with
    | zero => simp at hfuel
    | succ fuel =>
      rw [extract_frame cid fuel p f (fs.flatten ++ tail) hp (by simpa using hb) (hfs f (by simp)),
        ih (fun x hx => hfs x (by simp [hx])) fuel _ (by simpa using hp) rfl (by simpa using hfuel),
        countFrames_withBuf, withBuf_withBuf, countFrames_cons, withBuf_recs]

/-! ## FEED -/

/-- `FEED` when it is carried out, in terms of its pass. -/
theorem execFeed_carriedOut {cid : Byte} {len : BitVec 32} {s : State} {chunk rest : Bytes} {c : Context}
    (hd : s.din = chunk ++ rest) (hl : chunk.length = len.toNat) (hc : s.ctx[cid.toNat]? = some c)
    (hp : c.phase = .connected) (hfit : s.bufCap.admits (c.buf.length + len.toNat) = true) :
    execFeed cid len s = .next { s with
      ctx := s.ctx.set cid.toNat (feedPass cid chunk c s.g).ctx
      g := (feedPass cid chunk c s.g).g
      host := s.host.tail
      din := rest
      out := s.out ++ ((feedPass cid chunk c s.g).recs ++
        [.rsp opFeed cid .ok (BitVec.ofNat 64 (feedPass cid chunk c s.g).nframes)]) } := by
  unfold execFeed
  rw [takeDin_ready _ hd hl, withOpenContext_connected (s := { s with din := rest }) _ hc hp,
    withRoom_fits (s := { s with din := rest }) _ hfit]
  rfl

/-- The pass of a `FEED` from its cut, when the tail is kept. -/
theorem feedPass_keep (cid : Byte) (chunk : Bytes) (c : Context) (g : GlobalStats) (fs : List Bytes) (tail : Bytes)
    (hp : c.phase = .connected) (hb : c.buf ++ chunk = fs.flatten ++ tail) (hfs : ∀ f ∈ fs, wellFormedFrame f)
    (ht : bufferInv tail) :
    feedPass cid chunk c g = withBuf tail (countFrames cid ⟨c, g, [], 0⟩ fs) := by
  have hlen := length_flatten_frames hfs
  have : (c.buf ++ chunk).length = fs.flatten.length + tail.length := by rw [hb, List.length_append]
  rw [List.length_append] at this
  unfold feedPass
  rw [extract_cut_keep cid fs tail hfs ht _ _ (by simpa using hp) (by simpa using hb)
    (by simp only [passBound, Config.hdrLen]; omega)]
  have : (⟨appendBuf chunk c, g, [], 0⟩ : Pass) = withBuf (c.buf ++ chunk) ⟨c, g, [], 0⟩ := rfl
  rw [this, countFrames_withBuf, withBuf_withBuf]

/-- The pass of a `FEED` from its cut, when the tail is cleared. -/
theorem feedPass_clear (cid : Byte) (chunk : Bytes) (c : Context) (g : GlobalStats) (fs : List Bytes) (tail : Bytes)
    (hp : c.phase = .connected) (hb : c.buf ++ chunk = fs.flatten ++ tail) (hfs : ∀ f ∈ fs, wellFormedFrame f)
    (ht : badHead tail) :
    feedPass cid chunk c g =
      { withBuf [] (countFrames cid ⟨c, g, [], 0⟩ fs) with
        recs := (countFrames cid ⟨c, g, [], 0⟩ fs).recs ++ [.cond cid .badMagic (condInfo tail.length)] } := by
  have hlen := length_flatten_frames hfs
  have : (c.buf ++ chunk).length = fs.flatten.length + tail.length := by rw [hb, List.length_append]
  rw [List.length_append] at this
  unfold feedPass
  rw [extract_cut_clear cid fs tail hfs ht _ _ (by simpa using hp) (by simpa using hb)
    (by simp only [passBound, Config.hdrLen]; omega)]
  have : (⟨appendBuf chunk c, g, [], 0⟩ : Pass) = withBuf (c.buf ++ chunk) ⟨c, g, [], 0⟩ := rfl
  rw [this, countFrames_withBuf, withBuf_withBuf, withBuf_recs]

/-- Every pass of a `FEED` has one of the two forms above. -/
theorem feedPass_cases (cid : Byte) (chunk : Bytes) (c : Context) (g : GlobalStats) (hp : c.phase = .connected) :
    ∃ (fs : List Bytes) (tail : Bytes), c.buf ++ chunk = fs.flatten ++ tail ∧ (∀ f ∈ fs, wellFormedFrame f) ∧
      ((bufferInv tail ∧ feedPass cid chunk c g = withBuf tail (countFrames cid ⟨c, g, [], 0⟩ fs)) ∨
       (badHead tail ∧ feedPass cid chunk c g =
        { withBuf [] (countFrames cid ⟨c, g, [], 0⟩ fs) with
          recs := (countFrames cid ⟨c, g, [], 0⟩ fs).recs ++
            [.cond cid .badMagic (condInfo tail.length)] })) := by
  obtain ⟨fs, tail, hb, hfs, ht⟩ := exists_cut (c.buf ++ chunk)
  refine ⟨fs, tail, hb, hfs, ?_⟩
  rcases ht with ht | ht
  · exact .inl ⟨ht, feedPass_keep cid chunk c g fs tail hp hb hfs ht⟩
  · exact .inr ⟨ht, feedPass_clear cid chunk c g fs tail hp hb hfs ht⟩

/-! ## What counting frames adds up to -/

theorem countFrames_recs (cid : Byte) (p : Pass) (fs : List Bytes) :
    (countFrames cid p fs).recs = p.recs ++ fs.map (frameRecordOf cid) := by
  induction fs generalizing p with
  | nil => simp
  | cons f fs ih => simp [ih, countFrame]

theorem countFrames_nframes (cid : Byte) (p : Pass) (fs : List Bytes) :
    (countFrames cid p fs).nframes = p.nframes + fs.length := by
  induction fs generalizing p with
  | nil => simp
  | cons f fs ih => simp [ih, countFrame]; omega

/-- Counting frames leaves the address key, the connection time, the buffer and the start time alone. -/
theorem countFrames_untouched (cid : Byte) (p : Pass) (fs : List Bytes) :
    (countFrames cid p fs).ctx.addrKey = p.ctx.addrKey ∧ (countFrames cid p fs).ctx.connTs = p.ctx.connTs ∧
    (countFrames cid p fs).ctx.buf = p.ctx.buf ∧ (countFrames cid p fs).g.startTime = p.g.startTime := by
  induction fs generalizing p with
  | nil => simp
  | cons f fs ih => simp [ih, countFrame]

theorem rawsOf_map_frameRecordOf (cid : Byte) (fs : List Bytes) : rawsOf (fs.map (frameRecordOf cid)) = fs := by
  induction fs with
  | nil => rfl
  | cons f fs ih => simp only [List.map_cons, rawsOf, frameRecordOf, List.filterMap_cons]; congr 1

theorem rawsOf_append (a b : List Record) : rawsOf (a ++ b) = rawsOf a ++ rawsOf b := List.filterMap_append

end Sys2Proof.Machine
end

