-- ==== Sys2Proof/Laws/Memory.lean ====
section
/-! SUPPORT. The receive buffers stay within `BUF_CAP`: every operation on a buffer keeps the form `memoryWf` names,
and the reset state has it (10_state.md R23, R25; 20_memory.md R66, R68, R69). -/

namespace Sys2Proof.Machine

/-- Does a context's buffer fit? -/
abbrev fits (cap : Capacity) (c : Context) : Prop := cap.admits c.buf.length = true

theorem memoryWf_iff (s : State) : memoryWf s = true ↔ ∀ c ∈ s.ctx, fits s.bufCap c := by
  simp [memoryWf]

/-- An append that was checked against the capacity fits. -/
theorem fits_appendBuf {cap : Capacity} {chunk : Bytes} {c : Context}
    (h : cap.admits (c.buf.length + chunk.length) = true) : fits cap (appendBuf chunk c) := by
  simpa [fits] using h

theorem fits_dropFront {cap : Capacity} {n : Nat} {c : Context} (h : fits cap c) : fits cap (dropFront n c) :=
  admits_mono h (by simp)

theorem fits_clearBuf (cap : Capacity) (c : Context) : fits cap (clearBuf c) := by cases cap <;> simp [fits]

theorem memoryWf_reset (n : Nat) (cap : Capacity) (t0 : Time) : memoryWf (State.resetWith n cap t0) = true := by
  rw [memoryWf_iff]
  intro c hc
  rw [(List.mem_replicate.1 hc).2]
  exact fits_clearBuf _ Context.reset

/-- Cutting a frame or counting it, keeping or clearing the tail: a `FEED` that fits ends with a buffer that fits. -/
theorem fits_feedPass {cap : Capacity} {cid : Byte} {chunk : Bytes} {c : Context} {g : GlobalStats}
    (hp : c.phase = .connected) (h : cap.admits (c.buf.length + chunk.length) = true) :
    fits cap (feedPass cid chunk c g).ctx := by
  obtain ⟨fs, tail, hb, -, ⟨-, he⟩ | ⟨-, he⟩⟩ := feedPass_cases cid chunk c g hp
  · have hlen := congrArg List.length hb
    simp only [List.length_append] at hlen
    rw [he]
    exact admits_mono h (by rw [withBuf_buf]; omega)
  · rw [he]
    exact admits_mono h (by simp)

/-- Writing a context whose buffer fits keeps the form. -/
theorem memoryWf_writeContext {s : State} {cid : Byte} {c : Context} (hs : memoryWf s = true)
    (hc : fits s.bufCap c) :
    memoryWf (writeContext s cid c) = true := by
  rw [memoryWf_iff] at hs ⊢
  intro d hd
  rcases List.mem_or_eq_of_mem_set hd with h | rfl
  · exact hs d h
  · exact hc

theorem memoryWf_resetState (s : State) : memoryWf (resetState s) = true := by
  rw [memoryWf_iff]
  intro c hc
  rw [(List.mem_replicate.1 hc).2]
  exact fits_clearBuf _ Context.reset

/-- The operations on the queues leave every buffer alone. -/
theorem memoryWf_queues (s : State) (recs : List Record) (v : Time) (input : InputWord) :
    memoryWf (retire s) = memoryWf s ∧ memoryWf (emit recs s) = memoryWf s ∧
    memoryWf (setTime v s) = memoryWf s ∧ memoryWf (placeWord s input) = memoryWf s := ⟨rfl, rfl, rfl, rfl⟩

end Sys2Proof.Machine
end

