-- ==== Sys2Proof/Laws/Words.lean ====
section
/-! SUPPORT. Fields of words: what a field of a concatenation is, and the three fields of a command word. -/

namespace Sys2Proof

theorem bits_toNat {n : Nat} (v : BitVec n) (lo len : Nat) : (bits v lo len).toNat = v.toNat / 2 ^ lo % 2 ^ len := by
  simp [bits, Nat.shiftRight_eq_div_pow]

theorem bits_self {n : Nat} (v : BitVec n) : bits v 0 n = v := by simp [bits]

/-- A field inside the low part of a concatenation. -/
theorem bits_append_low {m n : Nat} (a : BitVec m) (b : BitVec n) (lo len : Nat) (h : lo + len ≤ n) :
    bits (a ++ b) lo len = bits b lo len := by
  apply BitVec.eq_of_getLsbD_eq
  intro i hi
  simp [bits, BitVec.getLsbD_append, hi, show lo + i < n by omega]

/-- A field inside the high part of a concatenation. -/
theorem bits_append_high {m n : Nat} (a : BitVec m) (b : BitVec n) (lo len : Nat) (h : n ≤ lo) :
    bits (a ++ b) lo len = bits a (lo - n) len := by
  apply BitVec.eq_of_getLsbD_eq
  intro i hi
  simp [bits, BitVec.getLsbD_append, hi, show ¬ lo + i < n by omega,
    show lo + i - n = lo - n + i by omega]

/-- An operand zero-extended to the argument field reads back. -/
theorem bits_setWidth {n : Nat} (v : BitVec n) (h : n ≤ 64) : bits (v.setWidth 64) 0 n = v := by
  apply BitVec.eq_of_toNat_eq
  have := lt_of_lt_of_le v.isLt (Nat.pow_le_pow_right (n := 2) (by omega) h)
  rw [bits_toNat, BitVec.toNat_setWidth, Nat.mod_eq_of_lt this, Nat.pow_zero, Nat.div_one,
    Nat.mod_eq_of_lt v.isLt]

/-- The three fields of a command word (30_encoding.md R105). -/
theorem bits_commandWord (op cid : Byte) (arg : BitVec 64) :
    bits (commandWord op cid arg) 72 8 = op ∧ bits (commandWord op cid arg) 64 8 = cid ∧
    bits (commandWord op cid arg) 0 64 = arg := by
  refine ⟨?_, ?_, ?_⟩
  · exact (bits_append_high _ _ _ _ (by decide)).trans
      ((bits_append_high _ _ _ _ (by decide)).trans (bits_self _))
  · exact (bits_append_high _ _ _ _ (by decide)).trans
      ((bits_append_low _ _ _ _ (by decide)).trans (bits_self _))
  · exact (bits_append_low _ _ _ _ (by decide)).trans (bits_self _)

/-- The bits of a command word that a mask over `op` and the argument keeps. -/
theorem commandWord_and (op cid : Byte) (arg mask : BitVec 64) :
    commandWord op cid arg &&& commandWord 0xFF#8 0#8 mask = commandWord op 0#8 (arg &&& mask) := by
  have h : (op ++ cid ++ arg) &&& (0xFF#8 ++ 0#8 ++ mask) = op ++ 0#8 ++ (arg &&& mask) := by
    rw [BitVec.and_append, BitVec.and_append, show (0xFF#8 : BitVec 8) = BitVec.allOnes 8 from rfl,
      BitVec.and_allOnes, BitVec.and_zero]
  exact h

end Sys2Proof
end

