-- ==== Sys2Proof/Laws/PerInstr.lean ====
section
/-! SUPPORT. One family of statements over all instructions: the word of a well-formed instruction has exactly the
fixed bits of its own row of spec/opcode_table.json, so that no encoding drifts onto a neighbour's. -/

namespace Sys2Proof.Laws.MatchesTableRow

/-- Does a word have a row's width and fixed bits? -/
def wordMatches (r : Row) : InputWord → Prop
  | .cmd80 cw => r.nbits = 80 ∧ cw.toNat &&& r.mask = r.value
  | .wire34 w => r.nbits = 272 ∧ w.toNat &&& r.mask = r.value

/-- A well-formed instruction's word matches the row of its mnemonic (30_encoding.md R105 to R107). -/
def Statement (i : Instr) : Prop :=
  i.wellFormed = true → ∃ r ∈ opcodeTable, r.mnemonic = i.mnemonic ∧ wordMatches r (encode i)

/-- A command word under the mask of its row. -/
theorem masked (op cid : Byte) (arg m : BitVec 64) (mask value : Nat)
    (hm : (commandWord 0xFF#8 0#8 m).toNat = mask) (hv : (commandWord op 0#8 (arg &&& m)).toNat = value) :
    (commandWord op cid arg).toNat &&& mask = value := by
  rw [← hm, ← BitVec.toNat_and, commandWord_and, hv]

/-- The row of a command whose mask fixes `op` alone. -/
theorem byOp (i : Instr) (name : String) (hn : i.mnemonic = name) (op cid : Byte) (arg : BitVec 64)
    (he : encode i = .cmd80 (commandWord op cid arg))
    (hr : (⟨name, 80, 0xFF000000000000000000, (commandWord op 0#8 0#64).toNat⟩ : Row) ∈ opcodeTable) :
    Statement i := by
  intro _
  refine ⟨_, hr, hn.symm, ?_⟩
  rw [he]
  refine ⟨rfl, masked op cid arg 0#64 0xFF000000000000000000 _ (by decide) ?_⟩
  rw [show arg &&& 0#64 = 0#64 from BitVec.and_zero]

/-- The row of a command whose mask fixes `op` and `arg[7:0]`, with the rest of `arg` 0. -/
theorem bySelector (i : Instr) (name : String) (hn : i.mnemonic = name) (cid : Byte) (sel : BitVec 64)
    (hs : sel &&& 0xFF#64 = sel)
    (he : encode i = .cmd80 (commandWord opRdstat cid sel))
    (hr : (⟨name, 80, 0xFF0000000000000000FF, (commandWord opRdstat 0#8 sel).toNat⟩ : Row) ∈ opcodeTable) :
    Statement i := by
  intro _
  refine ⟨_, hr, hn.symm, ?_⟩
  rw [he]
  exact ⟨rfl, masked opRdstat cid sel 0xFF#64 0xFF0000000000000000FF _ (by decide) (by rw [hs])⟩

/-- The argument of an `UNPK` under the mask of its row keeps the layout. -/
theorem unpkArg_and (layout : BitVec 2) (byte : Byte) :
    unpkArg layout byte &&& 0x300#64 = unpkArg layout 0#8 := by
  revert layout byte
  decide

/-- The row of a command whose mask fixes `op` and `arg[9:8]`. -/
theorem byLayout (i : Instr) (name : String) (hn : i.mnemonic = name) (cid : Byte) (layout : BitVec 2) (byte : Byte)
    (he : encode i = .cmd80 (commandWord opUnpk cid (unpkArg layout byte)))
    (hr : (⟨name, 80, 0xFF000000000000000300, (commandWord opUnpk 0#8 (unpkArg layout 0#8)).toNat⟩ : Row)
      ∈ opcodeTable) :
    Statement i := by
  intro _
  refine ⟨_, hr, hn.symm, ?_⟩
  rw [he]
  exact ⟨rfl, masked opUnpk cid (unpkArg layout byte) 0x300#64 0xFF000000000000000300 _ (by decide)
    (by rw [unpkArg_and])⟩

theorem nop (cid : Byte) : Statement (.nop cid) := byOp _ "NOP" rfl opNop cid _ rfl (by decide)
theorem openConn (cid : Byte) (addrKey : AddrKey) : Statement (.openConn cid addrKey) :=
  byOp _ "OPEN" rfl opOpen cid _ rfl (by decide)
theorem feed (cid : Byte) (len : BitVec 32) : Statement (.feed cid len) :=
  byOp _ "FEED" rfl opFeed cid _ rfl (by decide)
theorem closeConn (cid : Byte) (reason : CloseReason) : Statement (.closeConn cid reason) :=
  byOp _ "CLOSE" rfl opClose cid _ rfl (by decide)
theorem decode (cid : Byte) (len : BitVec 32) : Statement (.decode cid len) :=
  byOp _ "DECODE" rfl opDecode cid _ rfl (by decide)
theorem bcd6 (cid : Byte) (bytes : BitVec 48) : Statement (.bcd6 cid bytes) :=
  byOp _ "BCD6" rfl opBcd6 cid _ rfl (by decide)
theorem unpkRtp0 (cid byte : Byte) : Statement (.unpkRtp0 cid byte) :=
  byLayout _ "UNPK.RTP0" rfl cid 0#2 byte rfl (by decide)
theorem unpkRtp1 (cid byte : Byte) : Statement (.unpkRtp1 cid byte) :=
  byLayout _ "UNPK.RTP1" rfl cid 1#2 byte rfl (by decide)
theorem unpkDt (cid byte : Byte) : Statement (.unpkDt cid byte) := byLayout _ "UNPK.DT" rfl cid 2#2 byte rfl (by decide)
theorem rdstatStartTime (cid : Byte) : Statement (.rdstatStartTime cid) :=
  bySelector _ "RDSTAT.START_TIME" rfl cid 0x00#64 (by decide) rfl (by decide)
theorem rdstatTotalPkts (cid : Byte) : Statement (.rdstatTotalPkts cid) :=
  bySelector _ "RDSTAT.TOTAL_PKTS" rfl cid 0x01#64 (by decide) rfl (by decide)
theorem rdstatTotalBytes (cid : Byte) : Statement (.rdstatTotalBytes cid) :=
  bySelector _ "RDSTAT.TOTAL_BYTES" rfl cid 0x02#64 (by decide) rfl (by decide)
theorem rdstatIframeCnt (cid : Byte) : Statement (.rdstatIframeCnt cid) :=
  bySelector _ "RDSTAT.IFRAME_CNT" rfl cid 0x03#64 (by decide) rfl (by decide)
theorem rdstatPframeCnt (cid : Byte) : Statement (.rdstatPframeCnt cid) :=
  bySelector _ "RDSTAT.PFRAME_CNT" rfl cid 0x04#64 (by decide) rfl (by decide)
theorem rdstatConnStatus (cid : Byte) : Statement (.rdstatConnStatus cid) :=
  bySelector _ "RDSTAT.CONN_STATUS" rfl cid 0x10#64 (by decide) rfl (by decide)
theorem rdstatBufLen (cid : Byte) : Statement (.rdstatBufLen cid) :=
  bySelector _ "RDSTAT.BUF_LEN" rfl cid 0x11#64 (by decide) rfl (by decide)
theorem rdstatPktCnt (cid : Byte) : Statement (.rdstatPktCnt cid) :=
  bySelector _ "RDSTAT.PKT_CNT" rfl cid 0x12#64 (by decide) rfl (by decide)
theorem rdstatByteCnt (cid : Byte) : Statement (.rdstatByteCnt cid) :=
  bySelector _ "RDSTAT.BYTE_CNT" rfl cid 0x13#64 (by decide) rfl (by decide)
theorem rdstatDevId (cid : Byte) : Statement (.rdstatDevId cid) :=
  bySelector _ "RDSTAT.DEV_ID" rfl cid 0x14#64 (by decide) rfl (by decide)
theorem rdstatChannel (cid : Byte) : Statement (.rdstatChannel cid) :=
  bySelector _ "RDSTAT.CHANNEL" rfl cid 0x15#64 (by decide) rfl (by decide)
theorem rdstatAddrKey (cid : Byte) : Statement (.rdstatAddrKey cid) :=
  bySelector _ "RDSTAT.ADDR_KEY" rfl cid 0x16#64 (by decide) rfl (by decide)
theorem rdstatConnTs (cid : Byte) : Statement (.rdstatConnTs cid) :=
  bySelector _ "RDSTAT.CONN_TS" rfl cid 0x17#64 (by decide) rfl (by decide)

/-- The high part of a word under a mask that keeps all of it and nothing below. -/
theorem high_and {m n : Nat} (a : BitVec m) (b : BitVec n) :
    (a ++ b) &&& (BitVec.allOnes m ++ 0#n) = a ++ 0#n := by
  rw [BitVec.and_append, BitVec.and_allOnes, BitVec.and_zero]

theorem frameHdr (hdr : FrameHeader) : Statement (.frameHdr hdr) := by
  intro h
  have hm : hdr.magic = Config.magic := by simpa [Instr.wellFormed, FrameHeader.wellFormed] using h
  refine ⟨⟨"FRAME_HDR", 272, 0xFFFFFFFF * 2 ^ 240, 0x30316364 * 2 ^ 240⟩, by decide, rfl, rfl, ?_⟩
  have hmask : (BitVec.allOnes 32 ++ 0#240).toNat = 0xFFFFFFFF * 2 ^ 240 := by decide
  have hval : (Config.magic ++ 0#240).toNat = 0x30316364 * 2 ^ 240 := by decide
  rw [← hmask, ← hval, ← hm]
  exact congrArg BitVec.toNat (high_and hdr.magic _)

end Sys2Proof.Laws.MatchesTableRow
end

