-- ==== Sys2Proof/Tests/Slice0.lean ====
section
/-! SUPPORT. Tests. Expected values are the spec's own (95_test_vectors.md, by its vector numbers V<n>) or are worked
out by hand from the rule named; then one witness per obligation with hypotheses. -/

open Sys2Proof Sys2Proof.Machine

namespace Sys2Proof.Tests

/-! ## Helpers -/

/-- The next state, if the outcome is one. -/
def nextOf : Result → Option State
  | .next s => some s
  | .fault _ => none
  | .refused _ => none

/-- The records in the next state. -/
def outOf (r : Result) : Option (List Record) := (nextOf r).map fun s => s.out

/-- The state with one command word and some data bytes queued. -/
def given (s : State) (cw : BitVec 80) (data : Bytes) : State := { s with host := [.word (.cmd80 cw)], din := data }

/-- The records of one step on a command word and its data. -/
def answer (s : State) (cw : BitVec 80) (data : Bytes) : Option (List Record) := outOf (step (given s cw data))

/-- Frame FA of 95_test_vectors.md, 37 bytes. -/
def fa : Bytes := [
  0x30, 0x31, 0x63, 0x64, 0x81, 0xE2, 0x00, 0x07, 0xAA, 0xBB, 0xCC, 0xDD, 0x13, 0x80, 0x00, 0x00, 0x00, 0x01, 0x02,
  0x10, 0x00, 0x00, 0x01, 0x8B, 0xCF, 0xE5, 0x68, 0x00, 0x00, 0x28, 0x00, 0x14, 0x00, 0x03, 0xDE, 0xAD, 0xBF]

/-- Frame FB of 95_test_vectors.md, 34 bytes. -/
def fb : Bytes := [
  0x30, 0x31, 0x63, 0x64, 0x80, 0x62, 0x00, 0x08, 0x00, 0x00, 0x00, 0x00, 0x13, 0x80, 0x00, 0x00, 0x00, 0x01, 0x01,
  0x01, 0x00, 0x00, 0x01, 0x8B, 0xCF, 0xE5, 0x68, 0x28, 0x00, 0x28, 0x00, 0x28, 0x00, 0x00]

/-- `BAD34` of 95_test_vectors.md: one bit away from the magic. -/
def bad34 : Bytes := [
  0x30, 0x31, 0x63, 0x65, 0x00, 0x01, 0x02, 0x03, 0x04, 0x05, 0x06, 0x07, 0x08, 0x09, 0x0A, 0x0B, 0x0C, 0x0D, 0x0E,
  0x0F, 0x10, 0x11, 0x12, 0x13, 0x14, 0x15, 0x16, 0x17, 0x18, 0x19, 0x1A, 0x1B, 0x1C, 0x1D]

/-- The fields the spec lists for FA. -/
def faFields : FrameFields where
  magic := 0x30316364
  rtpVersion := 2
  rtpPadding := 0
  rtpExtension := 0
  csrcCount := 1
  marker := 1
  payloadType := 98
  sequence := 7
  deviceId := ⟨12, [0x31, 0x33, 0x38, 0x30, 0x30, 0x30, 0x30, 0x30, 0x30, 0x30, 0x30, 0x31, 0, 0, 0, 0, 0, 0, 0, 0, 0,
    0, 0, 0]⟩
  channel := 2
  dataType := 0
  subpackage := 1
  timestampMs := 1700000000000
  lastIFrameIntervalMs := 40
  lastFrameIntervalMs := 20
  declaredPayloadLength := 3

/-- FA's header as an instruction: its first 34 bytes, field by field. -/
def faHeader : FrameHeader where
  magic := 0x30316364
  rtpVersion := 2
  rtpPadding := 0
  rtpExtension := 0
  csrcCount := 1
  marker := 1
  payloadType := 98
  sequence := 7
  reserved := 0xAABBCCDD
  deviceIdRaw := 0x138000000001
  channel := 2
  undecoded := 0
  subpackage := 1
  dataType := 0
  timestampMs := 1700000000000
  lastIFrameIntervalMs := 40
  lastFrameIntervalMs := 20
  declaredPayloadLength := 3

/-- An open connection that has decoded FA, with some bytes buffered. -/
def conn (buf : Bytes) : Context where
  phase := .connected
  buf := buf
  pktCnt := 1
  byteCnt := 37
  idSet := true
  devIdRaw := 0x138000000001
  chan := 2
  addrKey := 0xAAAA
  connTs := 6000

/-- A connection just opened. -/
def fresh : Context := { Context.reset with phase := .connected, addrKey := 0xBBBB, connTs := 7000 }

/-- Context 0 open with some bytes buffered, context 1 just opened, statistics after FA. -/
def busy (buf : Bytes) : State :=
  { State.reset with ctx := [conn buf, fresh], g := ⟨5000, 1, 37, 1, 0⟩, hostTime := 8000 }

/-! ## Well-formedness -/

/-- A frame header without the magic is no header (30_encoding.md R98): its one check refuses it. -/
theorem test_header_without_magic_is_ill_formed :
    (Instr.frameHdr { faHeader with magic := 0x30316365 }).wellFormed = false := by decide

theorem test_header_with_magic_is_well_formed : (Instr.frameHdr faHeader).wellFormed = true := by decide

/-! ## Decoding: one word per constructor, written out from the spec -/

theorem test_decode_nop : decode (.cmd80 0x00000000000000000000) = .ok (.nop 0) := by decide
theorem test_decode_open : decode (.cmd80 0x0101000000000000000B) = .ok (.openConn 1 0xB) := by decide
theorem test_decode_feed : decode (.cmd80 0x02010000000000000027) = .ok (.feed 1 39) := by decide
theorem test_decode_close : decode (.cmd80 0x03010000000000000001) = .ok (.closeConn 1 .err) := by decide
theorem test_decode_close_eof : decode (.cmd80 0x0300FFFFFFFFFFFFFFFE) = .ok (.closeConn 0 .eof) := by decide
theorem test_decode_decode : decode (.cmd80 0x04000000000000000025) = .ok (.decode 0 37) := by decide
theorem test_decode_bcd6 : decode (.cmd80 0x05000000123456789ABC) = .ok (.bcd6 0 0x123456789ABC) := by decide
theorem test_decode_unpk_rtp0 : decode (.cmd80 0x06000000000000000020) = .ok (.unpkRtp0 0 0x20) := by decide
theorem test_decode_unpk_rtp1 : decode (.cmd80 0x0600000000000000017F) = .ok (.unpkRtp1 0 0x7F) := by decide
theorem test_decode_unpk_dt : decode (.cmd80 0x06ABFFFFFFFFFFFFFE10) = .ok (.unpkDt 0xAB 0x10) := by decide
theorem test_decode_start_time : decode (.cmd80 0x07000000000000000000) = .ok (.rdstatStartTime 0) := by decide
theorem test_decode_total_pkts : decode (.cmd80 0x07090000000000000001) = .ok (.rdstatTotalPkts 9) := by decide
theorem test_decode_total_bytes : decode (.cmd80 0x07000000000000000002) = .ok (.rdstatTotalBytes 0) := by decide
theorem test_decode_iframe_cnt : decode (.cmd80 0x07000000000000000003) = .ok (.rdstatIframeCnt 0) := by decide
theorem test_decode_pframe_cnt : decode (.cmd80 0x07000000000000000004) = .ok (.rdstatPframeCnt 0) := by decide
theorem test_decode_conn_status : decode (.cmd80 0x07010000000000000010) = .ok (.rdstatConnStatus 1) := by decide
theorem test_decode_buf_len : decode (.cmd80 0x07010000000000000011) = .ok (.rdstatBufLen 1) := by decide
theorem test_decode_pkt_cnt : decode (.cmd80 0x07020000000000000012) = .ok (.rdstatPktCnt 2) := by decide
theorem test_decode_byte_cnt : decode (.cmd80 0x07010000000000000013) = .ok (.rdstatByteCnt 1) := by decide
theorem test_decode_dev_id : decode (.cmd80 0x07000000000000000014) = .ok (.rdstatDevId 0) := by decide
theorem test_decode_channel : decode (.cmd80 0x07010000000000000015) = .ok (.rdstatChannel 1) := by decide
theorem test_decode_addr_key : decode (.cmd80 0x07000000000000000016) = .ok (.rdstatAddrKey 0) := by decide
theorem test_decode_conn_ts : decode (.cmd80 0x07010000000000000017) = .ok (.rdstatConnTs 1) := by decide

/-- The first 34 bytes of FA, in wire order. -/
theorem test_decode_frame_hdr :
    decode (.wire34 0x3031636481E20007AABBCCDD13800000000102100000018BCFE56800002800140003) =
      .ok (.frameHdr faHeader) := by decide

/-- V80, V81: a reserved `op`. -/
theorem test_decode_reserved_op : decode (.cmd80 0xFF030000000000001234) = .error (.illegalOp 0xFF 3) := by decide

/-- V32: the reserved `UNPK` layout. -/
theorem test_decode_reserved_layout : decode (.cmd80 0x06000000000000000310) = .error (.badOperand 6 0) := by decide

/-- V86: an unlisted selector. -/
theorem test_decode_unlisted_selector : decode (.cmd80 0x07000000000000000005) = .error (.badOperand 7 0) := by decide

/-- Every row of the opcode table decodes to its own mnemonic, and a step from reset runs it to a next state. -/
theorem test_table_rows_decode :
    opcodeTable.all (fun r => (decodeTableWord r.nbits r.value).map Instr.mnemonic == some r.mnemonic) = true := by
  decide

theorem test_table_rows_step :
    opcodeTable.all (fun r => (nextOf (step (State.reset.withFetchWord r.nbits r.value))).isSome) = true := by
  decide

/-- `mkframe` builds FA from its row of the spec's table of frames (30_encoding.md R101). -/
theorem test_mkframe_builds_fa :
    mkframe 0x81 0xE2 7 0xAABBCCDD 0x138000000001 2 0x10 1700000000000 40 20 [0xDE, 0xAD, 0xBF] = fa := by decide

/-! ## One step of each instruction -/

/-- V90. -/
theorem test_nop : answer (busy []) 0x00000000000000000000 [] = some [.rsp 0 0 .ok 0] := by decide

/-- 43_framer.md R170: the key and the time are taken, everything else is zero. -/
theorem test_open_closed_slot :
    (nextOf (step (given { State.reset with hostTime := 6000 } 0x01010000C0A80001D431 []))).map (fun s => s.ctx) =
      some [Context.reset, ⟨.connected, [], 0, 0, false, 0, 0, 0xC0A80001D431, 6000⟩] := by decide

/-- V61, V82: a second `OPEN`, and a context that does not exist. -/
theorem test_open_rejected :
    answer (busy []) 0x0100000000000000BBBB [] = some [.rsp 1 0 .alreadyOpen 0] ∧
    answer (busy []) 0x01020000000000000000 [] = some [.rsp 1 2 .badOperand 0] := by decide

/-- V48: the last byte completes FA; it is counted, and the identity already recorded stays. -/
theorem test_feed_completes_frame :
    nextOf (step (given (busy (fa.take 36)) 0x02000000000000000001 [0xBF])) =
      some { busy [] with
        ctx := [{ conn [] with pktCnt := 2, byteCnt := 74 }, fresh]
        g := ⟨5000, 2, 74, 2, 0⟩
        out := [.frame 0 faFields 37 fa, .rsp 2 0 .ok 1] } := by decide

/-- V52: a frame, then bad bytes and a frame behind them, in one chunk of 105 bytes. -/
theorem test_feed_discards_after_bad_magic :
    (nextOf (step (given (busy []) 0x02010000000000000069 (fb ++ bad34 ++ fa)))).map
        (fun s => (s.ctx[1]?, s.out.drop 1)) =
      some (some { fresh with pktCnt := 1, byteCnt := 34, idSet := true, devIdRaw := 0x138000000001, chan := 1 },
        [.cond 1 .badMagic 71, .rsp 2 1 .ok 1]) := by decide

/-- 60_exceptions.md R225 with a small capacity: one byte too many is rejected and dropped, and fits without a bound. -/
theorem test_feed_at_capacity :
    answer { busy (fa.take 36) with bufCap := .bytes 36 } 0x02000000000000000001 [0xBF] =
      some [.rsp 2 0 .bufferOverflow 0] ∧
    answer { busy (fa.take 36) with bufCap := .unbounded } 0x02000000000000000001 [0xBF] =
      some [.frame 0 faFields 37 fa, .rsp 2 0 .ok 1] := by decide

/-- 00_scope.md R8, R9: the smallest capacity, and `MAX_CHUNK` at the default, at the smallest and without a bound. -/
theorem test_capacities :
    (Capacity.bytes 65569).valid = true ∧ (Capacity.bytes 65568).valid = false ∧ Capacity.unbounded.valid = true ∧
    State.reset.bufCap.maxChunk = some 65536 ∧ (Capacity.bytes 65569).maxChunk = some 1 ∧
    Capacity.unbounded.maxChunk = none := by decide

/-- V60: ten buffered bytes are reported and dropped, the slot is empty. -/
theorem test_close_reports_buffered_bytes :
    (nextOf (step (given (busy (fb.take 10)) 0x03000000000000000001 []))).map (fun s => (s.ctx, s.out)) =
      some ([Context.reset, fresh], [.cond 0 .connectionError 10, .rsp 3 0 .ok 0]) := by decide

/-- V85. -/
theorem test_close_not_open : answer State.reset 0x03010000000000000000 [] = some [.rsp 3 1 .notOpen 0] := by decide

/-- V40: 36 of FA's 37 bytes. -/
theorem test_decode_length_diagnostic :
    answer State.reset 0x04000000000000000024 (fa.take 36) =
      some [.cond 0 .payloadLengthMismatch 2, .frame 0 faFields 36 (fa.take 36),
        .rsp 4 0 .payloadLengthMismatch 1] := by decide

/-- V35: too short and a wrong magic; the length check wins. -/
theorem test_decode_too_short_first :
    answer State.reset 0x04000000000000000014 (bad34.take 20) =
      some [.cond 0 .bufferTooShort 20, .rsp 4 0 .bufferTooShort 0] := by decide

/-- V13: a nibble above 9 gives two characters. -/
theorem test_bcd6 :
    answer State.reset 0x0500000001234567890A [] =
      some [.bcd ⟨13, [0x30, 0x31, 0x32, 0x33, 0x34, 0x35, 0x36, 0x37, 0x38, 0x39, 0x30, 0x31, 0x30, 0, 0, 0, 0, 0, 0,
        0, 0, 0, 0, 0]⟩, .rsp 5 0 .ok 13] := by decide

/-- V19, V22. -/
theorem test_unpk_rtp0 :
    answer State.reset 0x060000000000000000FF [] = some [.rsp 6 0 .ok 0x0F010103] ∧
    answer State.reset 0x06000000000000000010 [] = some [.rsp 6 0 .ok 0x00010000] := by decide

/-- V25. -/
theorem test_unpk_rtp1 : answer State.reset 0x060000000000000001E2 [] = some [.rsp 6 0 .ok 0x6201] := by decide

/-- V30. -/
theorem test_unpk_dt : answer State.reset 0x060000000000000002FF [] = some [.rsp 6 0 .ok 0x030F] := by decide

/-- 44_stats.md R280 to R284 on a state whose five global fields all differ. -/
theorem test_rdstat_global :
    let s : State := { State.reset with g := ⟨5000, 5, 185, 2, 1⟩ }
    answer s 0x07000000000000000000 [] = some [.rsp 7 0 .ok 5000] ∧
    answer s 0x07000000000000000001 [] = some [.rsp 7 0 .ok 5] ∧
    answer s 0x07000000000000000002 [] = some [.rsp 7 0 .ok 185] ∧
    answer s 0x07000000000000000003 [] = some [.rsp 7 0 .ok 2] ∧
    answer s 0x07000000000000000004 [] = some [.rsp 7 0 .ok 1] := by decide

/-- 44_stats.md R285 to R292 on a context whose fields all differ. -/
theorem test_rdstat_context :
    answer (busy (fa.take 5)) 0x07000000000000000010 [] = some [.rsp 7 0 .ok 5] ∧
    answer (busy (fa.take 6)) 0x07000000000000000011 [] = some [.rsp 7 0 .ok 6] ∧
    answer (busy []) 0x07000000000000000012 [] = some [.rsp 7 0 .ok 1] ∧
    answer (busy []) 0x07000000000000000013 [] = some [.rsp 7 0 .ok 37] ∧
    answer (busy []) 0x07000000000000000014 [] = some [.rsp 7 0 .ok 0x138000000001] ∧
    answer (busy []) 0x07000000000000000015 [] = some [.rsp 7 0 .ok 2] ∧
    answer (busy []) 0x07000000000000000016 [] = some [.rsp 7 0 .ok 0xAAAA] ∧
    answer (busy []) 0x07000000000000000017 [] = some [.rsp 7 0 .ok 6000] := by decide

/-- 42_decode.md R154, R156 on FA's header alone: N = 3 but no payload (log 7 for the input form). -/
theorem test_frame_hdr :
    outOf (step { State.reset with host := [.word (encode (.frameHdr faHeader))] }) =
      some [.cond 0 .payloadLengthMismatch 0, .frame 0 faFields 34 (fa.take 34),
        .rsp 4 0 .payloadLengthMismatch 1] := by decide

/-- 30_encoding.md R95: the names of two known values and an unknown one. -/
theorem test_names :
    dataTypeName 4 = .transparent ∧ dataTypeName 7 = .unknown 7 ∧ subpackageName 3 = .middle := by decide

/-- 30_encoding.md R119, V6: the chunks of `FEEDS`. -/
theorem test_feeds_line :
    (assembleLine (.feeds 0 (fa.take 5) [2, 0, 3])).host =
      [.word (.cmd80 0x02000000000000000002), .word (.cmd80 0x02000000000000000000),
       .word (.cmd80 0x02000000000000000003)] := by decide

/-! ## Witnesses: for every obligation with hypotheses, concrete values that meet all of them together -/

/-- The word of a command queued, and its data. -/
def queued (s : State) (i : Instr) (data : Bytes) : State := { s with host := [.word (encode i)], din := data }

/-- A wrong-magic byte string of any length from 4 on. -/
def junk (n : Nat) : Bytes := List.replicate n 0#8

theorem junk_length (n : Nat) : (junk n).length = n := List.length_replicate

/-- A header declaring no payload. -/
def header0 : Bytes := fb

/-- A header declaring one payload byte. -/
def header1 : Bytes := fb.take 33 ++ [0x01]

/-- Every instruction completes somewhere from reset: the premise `exec i s = next t` of the frame statements. -/
theorem witness_exec_next : ∃ t, exec (.feed 0 37) (queued (busy []) (.feed 0 37) fa) = .next t := ⟨_, rfl⟩

theorem witness_DecodeInvertsEncode :
    (Instr.feed 1 0xFFFFFFFF).wellFormed = true ∧ (Instr.frameHdr faHeader).wellFormed = true := by decide

theorem witness_TableRowsSelectTheirWords :
    (∃ r ∈ opcodeTable, r.nbits = 80) ∧
    (∀ r ∈ opcodeTable, r.nbits = 80 → (0x08000000000000000000 : BitVec 80).toNat &&& r.mask ≠ r.value) := by decide

theorem witness_CommandWordFieldsRead :
    let layout := fun a : BitVec 64 => a.toNat / 256 % 4
    let sel := fun a : BitVec 64 => a.toNat % 256
    layout 0xFFFFFFFFFFFFFCFF = 0 ∧ layout 0x100 = 1 ∧ layout 0x2FF = 2 ∧
    [0x00, 0x01, 0x02, 0x03, 0x04, 0x10, 0x11, 0x12, 0x13, 0x14, 0x15, 0x16, 0x17].all
      (fun k => sel (BitVec.ofNat 64 k) == k && sel (BitVec.ofNat 64 (0xFFFFFFFFFFFFFF00 + k)) == k) = true := by decide

theorem witness_HeaderWordKeepsEveryBit :
    ((Config.magic ++ 0#240 : BitVec 272)).toNat / 2 ^ 240 = 0x30316364 ∧
    ((0x30316365#32 ++ 0#240 : BitVec 272)).toNat / 2 ^ 240 ≠ 0x30316364 := by decide

theorem witness_DecodeFrameReadsMkframe : ([] : Bytes).length ≤ 65535 ∧ (junk 65535).length ≤ 65535 := by
  simp [junk_length]

/-- 0, 33 and 34 bytes, with and without the magic. -/
theorem witness_DecodeFrameChecksInOrder :
    ([] : Bytes).length < 34 ∧ (fb.take 33).length < 34 ∧ (34 ≤ bad34.length ∧ be bad34 0 4 ≠ 0x30316364#32) ∧
    (34 ≤ fb.length ∧ be fb 0 4 = 0x30316364#32) := by decide

theorem witness_StepRunsDecodedInstruction :
    (given State.reset 0x02000000000000000025 fa).host = .word (.cmd80 0x02000000000000000025) :: [] ∧
    decode (.cmd80 0x02000000000000000025) = .ok (.feed 0 37) := by decide

theorem witness_ReservedOpcodeRejected :
    [(0x08000000000000000000 : BitVec 80), 0xFF030000000000001234].all (fun cw =>
      (given (busy []) cw fa).host == [.word (.cmd80 cw)] && decide (8 ≤ cw.toNat / 2 ^ 72)) = true := by decide

theorem witness_UnpkLayoutThreeRejected :
    [(0x06000000000000000300 : BitVec 80), 0x06ABFFFFFFFFFFFFFFFF].all (fun cw =>
      (given (busy []) cw []).host == [.word (.cmd80 cw)] && cw.toNat / 2 ^ 72 == 0x06 &&
        cw.toNat / 256 % 4 == 3) = true := by decide

theorem witness_UnlistedSelectorRejected :
    [(0x07000000000000000005 : BitVec 80), 0x0700000000000000000F, 0x07000000000000000018, 0x070000000000000000FF].all
      (fun cw => (given (busy []) cw []).host == [.word (.cmd80 cw)] && cw.toNat / 2 ^ 72 == 0x07 &&
        (decide (5 ≤ cw.toNat % 256) && decide (cw.toNat % 256 ≤ 0x0F) || decide (0x18 ≤ cw.toNat % 256))) = true := by
  decide

theorem witness_BareHeaderBadMagicAnswered :
    ({ busy [] with host := [.word (.wire34 0)] } : State).host = .word (.wire34 0) :: [] ∧
    (0 : BitVec 272).toNat / 2 ^ 240 ≠ 0x30316364 := by decide

theorem witness_IdleAndTimeEvents :
    (busy []).host = [] ∧ ({ busy [] with host := [.time 9, .reset] } : State).host = .time 9 :: [.reset] := by decide

theorem witness_ResetEventRestoresResetState :
    ({ busy fa with host := [.reset] } : State).host = .reset :: [] := by decide

theorem witness_ContextSelectorsReadTheirField :
    (busy []).ctx[(0 : Byte).toNat]? = some (conn []) ∧ (busy []).ctx[(1 : Byte).toNat]? = some fresh ∧
    State.reset.ctx[(1 : Byte).toNat]? = some Context.reset := by decide

theorem witness_ContextSelectorsRejectBadCid :
    State.reset.ctx.length ≤ (2 : Byte).toNat ∧ State.reset.ctx.length ≤ (255 : Byte).toNat := by decide

/-- The invariant of `busy` with 33 arbitrary bytes, and with all but the last byte of FA. -/
theorem witness_inv : (busy (junk 33)).Inv ∧ (busy (fa.take 36)).Inv := by decide

theorem witness_SelectorsBetweenCommands :
    (busy (junk 33)).Inv ∧ (busy (junk 33)).ctx[(0 : Byte).toNat]? = some (conn (junk 33)) ∧
    State.reset.Inv ∧ State.reset.ctx[(0 : Byte).toNat]? = some Context.reset ∧ Context.reset.phase = .closed := by
  decide

/-- The clauses of `DecodeCommandResult` at the ends of their ranges: 131105 bytes; 0 and 33 bytes; 34 and 131104
bytes without the magic; a whole frame of 34 bytes; 34 bytes whose header declares one more. -/
theorem witness_DecodeCommandResult :
    (State.reset.bufCap.admits (junk 131105).length = false ∧ (junk 131105).length = (131105#32).toNat) ∧
    (State.reset.bufCap.admits ([] : Bytes).length ∧ ([] : Bytes).length < 34 ∧ ([] : Bytes).length = (0#32).toNat) ∧
    (State.reset.bufCap.admits (junk 33).length ∧ (junk 33).length < 34 ∧ (junk 33).length = (33#32).toNat) ∧
    (State.reset.bufCap.admits (junk 34).length ∧ 34 ≤ (junk 34).length ∧ be (junk 34) 0 4 ≠ 0x30316364#32 ∧
      (junk 34).length = (34#32).toNat) ∧
    (State.reset.bufCap.admits (junk 131104).length ∧ 34 ≤ (junk 131104).length ∧ be (junk 131104) 0 4 ≠ 0x30316364#32 ∧
      (junk 131104).length = (131104#32).toNat) ∧
    (State.reset.bufCap.admits fb.length ∧ 34 ≤ fb.length ∧ be fb 0 4 = 0x30316364#32 ∧ fb.length - 34 = (be fb 32 2).toNat ∧
      fb.length = (34#32).toNat) ∧
    (State.reset.bufCap.admits header1.length ∧ 34 ≤ header1.length ∧ be header1 0 4 = 0x30316364#32 ∧
      header1.length - 34 ≠ (be header1 32 2).toNat ∧ header1.length = (34#32).toNat) := by
  have h0 : junk 131104 = junk 4 ++ junk 131100 := List.replicate_add 4 131100 0#8
  have h1 : be (junk 131104) 0 4 = be (junk 4) 0 4 := by
    rw [h0, be_append_left _ _ _ _ (by rw [junk_length])]
  rw [h1]
  simp only [junk_length]
  decide

theorem witness_data_is_queued : (queued State.reset (.decode 0 34) (fb ++ fa)).din = fb ++ fa := by decide

theorem witness_CommandsWaitForTheirBytes :
    (queued (busy []) (.feed 0 37) (fa.take 36)).din.length < (37#32).toNat ∧
    (queued (busy []) (.feed 0 0xFFFFFFFF) []).din.length < (0xFFFFFFFF#32).toNat := by decide

theorem witness_FrameHeaderDecodes :
    faHeader.wellFormed = true ∧ ({ faHeader with declaredPayloadLength := 0 } : FrameHeader).wellFormed = true ∧
    State.reset.bufCap.valid = true := by
  decide

theorem witness_OpenInitialisesClosedSlot :
    State.reset.ctx.length ≤ (2 : Byte).toNat ∧
    ((busy []).ctx[(0 : Byte).toNat]? = some (conn []) ∧ (conn []).phase ≠ .closed) ∧
    (State.reset.ctx[(1 : Byte).toNat]? = some Context.reset ∧ Context.reset.phase = .closed) := by decide

theorem witness_CloseRemovesContext :
    State.reset.ctx.length ≤ (2 : Byte).toNat ∧
    (State.reset.ctx[(1 : Byte).toNat]? = some Context.reset ∧ Context.reset.phase ≠ .connected) ∧
    ((busy fa).ctx[(0 : Byte).toNat]? = some (conn fa) ∧ (conn fa).phase = .connected) := by decide

/-- The three rejections; the last with a buffer of 131104 bytes and a chunk of one. -/
theorem witness_FeedRejectionsDropTheChunk :
    ((queued State.reset (.feed 2 1) [0xBF]).din = [0xBF] ++ [] ∧ ([0xBF] : Bytes).length = (1#32).toNat ∧
      (queued State.reset (.feed 2 1) [0xBF]).ctx.length ≤ (2 : Byte).toNat) ∧
    ((queued State.reset (.feed 0 1) [0xBF]).ctx[(0 : Byte).toNat]? = some Context.reset ∧
      Context.reset.phase ≠ .connected) ∧
    ((queued (busy (junk 131104)) (.feed 0 1) [0xBF]).ctx[(0 : Byte).toNat]? = some (conn (junk 131104)) ∧
      (conn (junk 131104)).phase = .connected ∧
      (busy (junk 131104)).bufCap.admits ((conn (junk 131104)).buf.length + (1#32).toNat) = false) := by
  have h : (conn (junk 131104)).buf.length = 131104 := junk_length _
  refine ⟨by decide, by decide, rfl, rfl, ?_⟩
  rw [h]
  decide

/-- The hypotheses that the statements about a carried out `FEED` share, at the largest chunk that fits. -/
theorem witness_FeedIsCarriedOut :
    (queued (busy []) (.feed 0 131104) (junk 131104)).din = junk 131104 ++ [] ∧
    (junk 131104).length = (131104#32).toNat ∧
    (queued (busy []) (.feed 0 131104) (junk 131104)).ctx[(0 : Byte).toNat]? = some (conn []) ∧
    (conn []).phase = .connected ∧ (busy []).bufCap.admits ((conn []).buf.length + (131104#32).toNat) := by
  refine ⟨(List.append_nil _).symm, ?_, rfl, rfl, by decide⟩
  rw [junk_length]
  decide

/-- A buffer that stays below 34 bytes, and FA without its last byte. -/
theorem witness_FeedKeepsIncompleteFrame :
    ((queued (busy (junk 32)) (.feed 0 1) [0]).din = [0] ++ [] ∧ ([0] : Bytes).length = (1#32).toNat ∧
      (busy (junk 32)).ctx[(0 : Byte).toNat]? = some (conn (junk 32)) ∧ (conn (junk 32)).phase = .connected ∧
      (busy (junk 32)).bufCap.admits ((conn (junk 32)).buf.length + (1#32).toNat) ∧ bufferInv ((conn (junk 32)).buf ++ [0])) ∧
    ((queued (busy (fa.take 35)) (.feed 0 1) [0xAD]).din = [0xAD] ++ [] ∧ ([0xAD] : Bytes).length = (1#32).toNat ∧
      (busy (fa.take 35)).ctx[(0 : Byte).toNat]? = some (conn (fa.take 35)) ∧
      (conn (fa.take 35)).phase = .connected ∧
      (busy (fa.take 35)).bufCap.admits ((conn (fa.take 35)).buf.length + (1#32).toNat) ∧
      bufferInv ((conn (fa.take 35)).buf ++ [0xAD])) := by decide

theorem witness_FeedClearsOnBadMagic :
    (queued (busy (junk 33)) (.feed 0 1) [0]).din = [0] ++ [] ∧ ([0] : Bytes).length = (1#32).toNat ∧
    (busy (junk 33)).ctx[(0 : Byte).toNat]? = some (conn (junk 33)) ∧ (conn (junk 33)).phase = .connected ∧
    (busy (junk 33)).bufCap.admits ((conn (junk 33)).buf.length + (1#32).toNat) ∧ badHead ((conn (junk 33)).buf ++ [0]) := by decide

/-- The last byte of FA and the whole of FB arrive: FA is peeled off, FB is left. -/
theorem witness_FeedPeelsOneFrame :
    (queued (busy (fa.take 36)) (.feed 0 35) (0xBF :: fb)).din = (0xBF :: fb) ++ [] ∧
    (0xBF :: fb : Bytes).length = (35#32).toNat ∧
    (busy (fa.take 36)).ctx[(0 : Byte).toNat]? = some (conn (fa.take 36)) ∧ (conn (fa.take 36)).phase = .connected ∧
    (busy (fa.take 36)).bufCap.admits ((conn (fa.take 36)).buf.length + (35#32).toNat) ∧
    (conn (fa.take 36)).buf ++ (0xBF :: fb) = fa ++ fb ∧ wellFormedFrame fa ∧ fb.length = (34#32).toNat := by decide

theorem witness_FeedEmitsStreamInOrder :
    (queued (busy []) (.feed 1 37) fa).din = fa ++ [] ∧ fa.length = (37#32).toNat ∧
    (queued (busy []) (.feed 1 37) fa).ctx[(1 : Byte).toNat]? = some fresh ∧ fresh.phase = .connected ∧
    (busy []).bufCap.admits (fresh.buf.length + (37#32).toNat) ∧
    ∃ t, exec (.feed 1 37) (queued (busy []) (.feed 1 37) fa) = .next t := by
  refine ⟨by decide, by decide, by decide, by decide, by decide, _, rfl⟩

theorem witness_FeedCountsEmittedFrames :
    (37#32).toNat ≤ (queued (busy []) (.feed 1 37) fa).din.length ∧
    (queued (busy []) (.feed 1 37) fa).ctx[(1 : Byte).toNat]? = some fresh ∧ fresh.phase = .connected ∧
    (busy []).bufCap.admits (fresh.buf.length + (37#32).toNat) ∧
    (nextOf (exec (.feed 1 37) (queued (busy []) (.feed 1 37) fa))).map (fun t => (t.out, t.ctx[(1 : Byte).toNat]?)) =
      some ((busy []).out ++ [.frame 1 faFields 37 fa, .rsp 2 1 .ok 1],
        some { fresh with pktCnt := 1, byteCnt := 37, idSet := true, devIdRaw := 0x138000000001, chan := 2 }) := by
  decide

/-- The three clauses: identity already set; not set and no frame; not set and a first frame. -/
theorem witness_IdentityIsSetOnce :
    (conn []).idSet = true ∧ fresh.idSet = false ∧
    (outOf (exec (.feed 1 0) (queued (busy []) (.feed 1 0) []))).map rawsOf = some [] ∧
    (outOf (exec (.feed 1 71) (queued (busy []) (.feed 1 71) (fa ++ fb)))).map rawsOf = some [fa, fb] := by decide

theorem witness_EmptyChunkChangesNothing :
    (busy (fa.take 36)).Inv ∧ (busy (fa.take 36)).ctx[(0 : Byte).toNat]? = some (conn (fa.take 36)) ∧
    (conn (fa.take 36)).phase = .connected := by decide

/-- The largest chunk that is never rejected. -/
theorem witness_BoundedChunksNeverOverflow :
    (queued (busy (fa.take 36)) (.feed 0 65536) (junk 65536)).Inv ∧
    (busy (fa.take 36)).ctx[(0 : Byte).toNat]? = some (conn (fa.take 36)) ∧ (conn (fa.take 36)).phase = .connected ∧
    (∀ m, (busy (fa.take 36)).bufCap.maxChunk = some m → (65536#32).toNat ≤ m) ∧
    (65536#32).toNat ≤ (queued (busy (fa.take 36)) (.feed 0 65536) (junk 65536)).din.length := by
  have hinv : (busy (fa.take 36)).Inv := witness_inv.2
  refine ⟨hinv, by decide, by decide, fun m h => ?_, ?_⟩
  · cases h
    decide
  show 65536 ≤ (junk 65536).length
  rw [junk_length]

/-- FA and FB in chunks of 20, 0 and 51 bytes, with context 1 fresh. -/
def streamState : State :=
  { busy [] with
    host := feedWords 1 [fa.take 20, [], fa.drop 20 ++ fb]
    din := fa ++ fb }

/-- The chunks of `streamState`. -/
def streamChunks : List Bytes := [fa.take 20, [], fa.drop 20 ++ fb]

theorem stream_room :
    ∀ (k : Nat) (t : State) (ck : Context) (chunk : Bytes), run k streamState = .next t →
      t.ctx[(1 : Byte).toNat]? = some ck → streamChunks[k]? = some chunk →
      streamState.bufCap.admits (ck.buf.length + chunk.length) := by
  intro k t ck chunk hr hc hk
  have room : (List.range 3).all (fun k => ((nextOf (run k streamState)).bind (fun t => t.ctx[(1 : Byte).toNat]?)).any
      (fun c => streamState.bufCap.admits (c.buf.length + 51))) = true := by decide
  have hk3 : k < 3 := (List.getElem?_eq_some_iff.1 hk).1
  have h := List.all_eq_true.1 room k (List.mem_range.2 hk3)
  rw [hr] at h
  simp only [nextOf, Option.bind_some, hc, Option.any_some] at h
  have hlen : ∀ c ∈ streamChunks, c.length ≤ 51 := by decide
  have := hlen chunk (List.mem_of_getElem? hk)
  exact admits_mono h (by omega)

theorem witness_ReassemblyUnderAnyChunking :
    streamState.ctx[(1 : Byte).toNat]? = some fresh ∧ fresh.phase = .connected ∧ fresh.buf = [] ∧
    (∀ f ∈ [fa, fb], wellFormedFrame f) ∧ streamChunks.flatten = [fa, fb].flatten ∧
    streamState.host = feedWords 1 streamChunks ++ [] ∧ streamState.din = streamChunks.flatten ++ [] ∧
    (∀ chunk ∈ streamChunks, chunk.length < 2 ^ 32) ∧
    (∀ (k : Nat) (t : State) (ck : Context) (chunk : Bytes), run k streamState = .next t →
      t.ctx[(1 : Byte).toNat]? = some ck → streamChunks[k]? = some chunk →
      streamState.bufCap.admits (ck.buf.length + chunk.length)) :=
  ⟨by decide, by decide, by decide, by decide, by decide, by decide, by decide, by decide, stream_room⟩

theorem witness_ChunkBoundaryInvisibleWithoutBadMagic :
    let s := queued (busy []) (.feed 1 20) (fa ++ fb)
    s.din = fa.take 20 ++ ((fa.drop 20 ++ fb) ++ []) ∧ (fa.take 20).length = (20#32).toNat ∧
    (fa.drop 20 ++ fb).length = (51#32).toNat ∧ (71#32).toNat = (20#32).toNat + (51#32).toNat ∧
    s.ctx[(1 : Byte).toNat]? = some fresh ∧ fresh.phase = .connected ∧
    s.bufCap.admits (fresh.buf.length + (71#32).toNat) ∧
    ((nextOf (exec (.feed 1 20) s)).bind fun t => outOf (exec (.feed 1 51) t)) =
      some ([.rsp 2 1 .ok 0] ++
        [frameRecordOf 1 fa, frameRecordOf 1 fb, .rsp 2 1 .ok 2]) := by decide

/-- A corrupted chunk of 34 bytes, and corrupted chunks of 33 bytes and of 1 byte, at the smallest capacity. -/
theorem witness_ResyncNeedsThirtyFourBytes :
    [bad34, junk 33, [0x30]].all (fun bad =>
      let s : State := { busy [] with bufCap := .bytes 65569, host := feedWords 1 [bad, fa], din := bad ++ fa }
      decide (s.ctx[(1 : Byte).toNat]? = some fresh) && decide (fresh.phase = .connected) && decide (fresh.buf = []) &&
      decide (wellFormedFrame fa) && decide (1 ≤ bad.length) && decide (bad.length < 2 ^ 32) &&
      decide (4 ≤ bad.length → be bad 0 4 ≠ 0x30316364#32) &&
      decide (s.host = feedWords 1 [bad, fa] ++ []) && decide (s.din = bad ++ fa ++ []) &&
      s.bufCap.admits bad.length && s.bufCap.admits fa.length && s.bufCap.admits (bad.length + fa.length)) = true := by
  decide

theorem witness_FramesAfterBadMagicAreLost :
    let s := queued (busy []) (.feed 1 142) (fa ++ fb ++ (bad34 ++ fa))
    s.ctx[(1 : Byte).toNat]? = some fresh ∧ fresh.phase = .connected ∧ fresh.buf = [] ∧
    (∀ f ∈ [fa, fb], wellFormedFrame f) ∧ badHead (bad34 ++ fa) ∧
    s.din = [fa, fb].flatten ++ (bad34 ++ fa) ++ [] ∧
    ([fa, fb].flatten ++ (bad34 ++ fa)).length = (142#32).toNat ∧ s.bufCap.admits (142#32).toNat := by decide

theorem witness_StepKeepsInvariant :
    (queued (busy (fa.take 36)) (.feed 0 1) [0xBF]).Inv ∧
    ∃ t, step (queued (busy (fa.take 36)) (.feed 0 1) [0xBF]) = .next t := ⟨by decide, _, rfl⟩

/-- One context and 256, the smallest capacity and none. -/
theorem witness_ResetHasInvariant :
    1 ≤ 1 ∧ 1 ≤ 256 ∧ 256 ≤ 256 ∧ (∀ k, Capacity.bytes 65569 = .bytes k → 65569 ≤ k) ∧
    (∀ k, Capacity.unbounded = .bytes k → 65569 ≤ k) := by
  refine ⟨by decide, by decide, by decide, fun k h => ?_, fun k h => ?_⟩
  · cases h
    exact Nat.le_refl _
  · cases h

theorem witness_StepKeepsBuffersWithinCapacity :
    memoryWf (queued (busy (fa.take 36)) (.feed 0 1) [0xBF]) = true ∧
    ∃ t, step (queued (busy (fa.take 36)) (.feed 0 1) [0xBF]) = .next t := ⟨by decide, _, rfl⟩

/-- An instruction of each kind the clauses tell apart, with a next state. -/
theorem witness_CommandTouchesOnlyItsContext :
    (∃ t, exec (.feed 0 37) (queued (busy []) (.feed 0 37) fa) = .next t) ∧
    (∃ t, exec (.openConn 0 1) State.reset = .next t) ∧ (∃ t, exec (.nop 3) State.reset = .next t) ∧
    writesContext (.nop 3) = false ∧ writesGlobal (.openConn 0 1) = false ∧
    (∀ cid len, Instr.nop 3 ≠ .feed cid len ∧ Instr.nop 3 ≠ .decode cid len) ∧
    (queued (busy []) (.feed 0 37) fa).ctx[(0 : Byte).toNat]? = some (conn []) ∧
    ((nextOf (exec (.feed 0 37) (queued (busy []) (.feed 0 37) fa))).bind fun t => t.ctx[(0 : Byte).toNat]?) =
      some { conn [] with pktCnt := 2, byteCnt := 74 } := by
  refine ⟨⟨_, rfl⟩, ⟨_, rfl⟩, ⟨_, rfl⟩, rfl, rfl, ?_, by decide, by decide⟩
  intro cid len
  exact ⟨by simp, by simp⟩

theorem witness_EveryCommandEndsWithOneResponse :
    (∃ t, exec (.closeConn 0 .err) (busy fa) = .next t) ∧ (∃ t, exec (.feed 0 1) (busy fa) = .next t) :=
  ⟨⟨_, rfl⟩, ⟨_, rfl⟩⟩

/-- Two states that differ in the other connection and in `G`, with the same input. -/
theorem witness_ConnectionsDoNotInterfere :
    let s1 := queued (busy []) (.feed 0 37) fa
    let s2 : State := { s1 with ctx := [conn [], Context.reset], g := ⟨1, 2, 3, 4, 5⟩, out := [.rsp 0 0 .ok 0] }
    readsGlobal (.feed 0 37) = false ∧ s1.ctx[(echoCid (.feed 0 37)).toNat]? = s2.ctx[(echoCid (.feed 0 37)).toNat]? ∧
    s1.din = s2.din ∧ s1.hostTime = s2.hostTime ∧ s1.bufCap = s2.bufCap ∧
    outOf (exec (.feed 0 37) s1) = some (s1.out ++ [frameRecordOf 0 fa, .rsp 2 0 .ok 1]) := by decide

/-- FB for context 0 and FA for context 1, in both orders. -/
theorem witness_FeedsOfTwoConnectionsCommute :
    (0 : Byte) ≠ 1 ∧ fb.length = (34#32).toNat ∧ fa.length = (37#32).toNat ∧
    ((nextOf (exec (.feed 0 34) { busy [] with din := fb ++ (fa ++ []) })).bind
      (fun ta => nextOf (exec (.feed 1 37) ta))).isSome = true ∧
    ((nextOf (exec (.feed 1 37) { busy [] with din := fa ++ (fb ++ []) })).bind
      (fun tb => nextOf (exec (.feed 0 34) tb))).isSome = true := by decide

theorem witness_FeedsLineCarriesTheBytes : [2, 0, 3].sum = (fa.take 5).length := by decide

end Sys2Proof.Tests
end

/-! PROOFS. What one step is (00_scope.md R6, R14): its equations by the next host event, the branches of each shared
operation, and that every meaning answers a next state. -/

namespace Sys2Proof.Machine

/-! ## One step, by the next host event -/

theorem step_nil {s : State} (h : s.host = []) : step s = .next s := by
  simp only [step, h]
  rfl

theorem step_time {s : State} {v : Time} {rest : List HostEvent} (h : s.host = .time v :: rest) :
    step s = .next (setTime v (retire s)) := by
  simp only [step, h]

theorem step_reset {s : State} {rest : List HostEvent} (h : s.host = .reset :: rest) :
    step s = .next (resetState (retire s)) := by
  simp only [step, h]

theorem step_word_ok {s : State} {w : InputWord} {rest : List HostEvent} {i : Instr}
    (h : s.host = .word w :: rest) (hd : decode w = .ok i) : step s = exec i s := by
  simp only [step, h, hd]

theorem step_word_error {s : State} {w : InputWord} {rest : List HostEvent} {e : DecodeError}
    (h : s.host = .word w :: rest) (hd : decode w = .error e) : step s = rejectWord e s := by
  simp only [step, h, hd]

/-! ## The branches of the shared operations -/

/-- Selecting a context rejects a `cid` that names none, or goes on with the context it names. -/
theorem withContext_cases (s : State) (op cid : Byte) (k : Context → Result) :
    (s.ctx.length ≤ cid.toNat ∧ withContext s op cid k = reject s op cid .badOperand) ∨
    ∃ c, s.ctx[cid.toNat]? = some c ∧ withContext s op cid k = k c := by
  cases hc : s.ctx[cid.toNat]? with
  | none =>
    have hlen := List.getElem?_eq_none_iff.mp hc
    exact .inl ⟨hlen, withContext_none k hlen⟩
  | some c => exact .inr ⟨c, rfl, withContext_some k hc⟩

/-- Selecting an open context rejects a `cid` that names no context, then a context that is not connected, in the
order of 60_exceptions.md R231, or goes on with the context. -/
theorem withOpenContext_cases (s : State) (op cid : Byte) (k : Context → Result) :
    (s.ctx.length ≤ cid.toNat ∧ withOpenContext s op cid k = reject s op cid .badOperand) ∨
    (∃ c, s.ctx[cid.toNat]? = some c ∧ c.phase ≠ .connected ∧
      withOpenContext s op cid k = reject s op cid .notOpen) ∨
    ∃ c, s.ctx[cid.toNat]? = some c ∧ c.phase = .connected ∧ withOpenContext s op cid k = k c := by
  cases hc : s.ctx[cid.toNat]? with
  | none =>
    have hlen := List.getElem?_eq_none_iff.mp hc
    exact .inl ⟨hlen, withOpenContext_none k hlen⟩
  | some c =>
    by_cases hp : c.phase = .connected
    · exact .inr (.inr ⟨c, rfl, hp, withOpenContext_connected k hc hp⟩)
    · exact .inr (.inl ⟨c, rfl, hp, withOpenContext_other k hc hp⟩)

/-- A command that needs room for `n` bytes is rejected for the capacity or goes on. -/
theorem withRoom_cases (s : State) (op cid : Byte) (n : Nat) (k : Result) :
    (s.bufCap.admits n = false ∧ withRoom s op cid n k = reject s op cid .bufferOverflow) ∨
    (s.bufCap.admits n = true ∧ withRoom s op cid n k = k) := by
  cases hroom : s.bufCap.admits n with
  | false => exact .inl ⟨rfl, withRoom_full k hroom⟩
  | true => exact .inr ⟨rfl, withRoom_fits k hroom⟩

/-! ## Answering a next state -/

/-- A result that is a next state: neither a fault nor a refusal. -/
def IsNext (r : Result) : Prop := ∃ t, r = .next t

theorem isNext_next (t : State) : IsNext (.next t) := ⟨t, rfl⟩

theorem respond_isNext (s : State) (recs : List Record) (op cid : Byte) (st : Status) (v : BitVec 64) :
    IsNext (respond s recs op cid st v) := isNext_next _

theorem reject_isNext (s : State) (op cid : Byte) (st : Status) : IsNext (reject s op cid st) :=
  respond_isNext ..

theorem takeDin_isNext {s : State} {len : BitVec 32} {k : Bytes → State → Result}
    (hk : ∀ f t, IsNext (k f t)) : IsNext (takeDin s len k) := by
  obtain ⟨-, hwait⟩ | ⟨f, rest, -, -, hready⟩ := takeDin_cases s len k
  · exact hwait ▸ isNext_next s
  · exact hready ▸ hk f _

theorem withContext_isNext {s : State} {op cid : Byte} {k : Context → Result} (hk : ∀ c, IsNext (k c)) :
    IsNext (withContext s op cid k) := by
  obtain ⟨-, hnone⟩ | ⟨c, -, hsome⟩ := withContext_cases s op cid k
  · exact hnone ▸ reject_isNext ..
  · exact hsome ▸ hk c

theorem withOpenContext_isNext {s : State} {op cid : Byte} {k : Context → Result} (hk : ∀ c, IsNext (k c)) :
    IsNext (withOpenContext s op cid k) := by
  obtain ⟨-, hnone⟩ | ⟨c, -, -, hother⟩ | ⟨c, -, -, hopen⟩ := withOpenContext_cases s op cid k
  · exact hnone ▸ reject_isNext ..
  · exact hother ▸ reject_isNext ..
  · exact hopen ▸ hk c

theorem withRoom_isNext {s : State} {op cid : Byte} {n : Nat} {k : Result} (hk : IsNext k) :
    IsNext (withRoom s op cid n k) := by
  obtain ⟨-, hfull⟩ | ⟨-, hfits⟩ := withRoom_cases s op cid n k
  · exact hfull ▸ reject_isNext ..
  · rw [hfits]
    exact hk

theorem rejectWord_isNext (e : DecodeError) (s : State) : IsNext (rejectWord e s) := by
  cases e with
  | illegalOp op cid => exact reject_isNext ..
  | badOperand op cid => exact reject_isNext ..
  | badMagic w => exact respond_isNext ..

/-! ## The meanings with more than one branch -/

theorem execOpen_isNext (cid : Byte) (addrKey : AddrKey) (s : State) : IsNext (execOpen cid addrKey s) := by
  refine withContext_isNext fun c => ?_
  split
  · exact respond_isNext ..
  · exact reject_isNext ..

theorem execFeed_isNext (cid : Byte) (len : BitVec 32) (s : State) : IsNext (execFeed cid len s) :=
  takeDin_isNext fun _ _ => withOpenContext_isNext fun _ => withRoom_isNext (respond_isNext ..)

theorem execClose_isNext (cid : Byte) (reason : CloseReason) (s : State) : IsNext (execClose cid reason s) :=
  withOpenContext_isNext fun _ => respond_isNext ..

/-- Each of the three outcomes of the Frame Decoder is answered (42_decode.md R156). -/
theorem decodeBytes_isNext (cid : Byte) (f : Bytes) (s : State) : IsNext (decodeBytes cid f s) := by
  refine withRoom_isNext ?_
  split
  · exact respond_isNext ..
  · exact respond_isNext ..
  · exact respond_isNext ..

theorem execDecode_isNext (cid : Byte) (len : BitVec 32) (s : State) : IsNext (execDecode cid len s) :=
  takeDin_isNext fun f t => decodeBytes_isNext cid f t

theorem readField_isNext (cid : Byte) (val : Context → BitVec 64) (s : State) : IsNext (readField cid val s) :=
  withContext_isNext fun _ => respond_isNext ..

/-! ## Every instruction, every step -/

/-- No instruction faults or is refused, whatever the state (60_exceptions.md R242). -/
theorem exec_isNext (i : Instr) (s : State) : IsNext (exec i s) := by
  cases i with
  | nop => exact respond_isNext ..
  | openConn cid addrKey => exact execOpen_isNext cid addrKey s
  | feed cid len => exact execFeed_isNext cid len s
  | closeConn cid reason => exact execClose_isNext cid reason s
  | decode cid len => exact execDecode_isNext cid len s
  | bcd6 => exact respond_isNext ..
  | unpkRtp0 | unpkRtp1 | unpkDt => exact respond_isNext ..
  | rdstatStartTime | rdstatTotalPkts | rdstatTotalBytes | rdstatIframeCnt | rdstatPframeCnt =>
    exact respond_isNext ..
  | rdstatConnStatus | rdstatBufLen | rdstatPktCnt | rdstatByteCnt | rdstatDevId | rdstatChannel
  | rdstatAddrKey | rdstatConnTs => exact readField_isNext ..
  | frameHdr hdr => exact decodeBytes_isNext _ _ s

/-- Settles O9: the equation of a step on a word that decodes. -/
theorem stepRunsDecodedInstruction : Obligations.StepRunsDecodedInstruction :=
  fun _ _ _ _ hword hdecode => step_word_ok hword hdecode

/-- Settles O10, by the next host event; a word is an instruction, which answers by `exec_isNext`, or is
rejected. -/
theorem everyStepCompletes : Obligations.EveryStepCompletes := by
  intro s
  cases hhost : s.host with
  | nil => exact ⟨_, step_nil hhost⟩
  | cons event rest =>
    cases event with
    | time v => exact ⟨_, step_time hhost⟩
    | reset => exact ⟨_, step_reset hhost⟩
    | word w =>
      cases hdecode : decode w with
      | ok i => exact step_word_ok hhost hdecode ▸ exec_isNext i s
      | error e => exact step_word_error hhost hdecode ▸ rejectWord_isNext e s

end Sys2Proof.Machine

/-! PROOFS. What one command, and one step, can do to the state, said once by an inversion lemma each; and from these
what stays: the access summary of 10_state.md R35, and the receive buffers within `BUF_CAP` (R23, R25). With them the
reset state (R33). -/

namespace Sys2Proof.Machine

/-! ## Reset -/

/-- Settles O16: the equation of a step on a reset event; every context it leaves is a copy of the reset context. -/
theorem resetEventRestoresResetState : Obligations.ResetEventRestoresResetState := by
  intro s rest hhost
  refine ⟨_, step_reset hhost, by simp, rfl, ?_, rfl, rfl, rfl, rfl, rfl, rfl, by simp [hhost], rfl, rfl⟩
  intro c hc
  obtain rfl : c = Context.reset := List.eq_of_mem_replicate hc
  exact ⟨rfl, rfl, rfl, rfl, rfl, rfl, rfl, rfl, rfl⟩

/-- A capacity that is no bound below 65569 bytes is one the spec allows (00_scope.md R8). -/
theorem valid_of_bytes_ge {cap : Capacity} (h : ∀ k, cap = .bytes k → 65569 ≤ k) : cap.valid = true := by
  cases cap with
  | bytes k => simpa using h k rfl
  | unbounded => rfl

theorem resetWith_inv {n : Nat} {cap : Capacity} (t0 : Time) (hpos : 1 ≤ n) (hmax : n ≤ 256)
    (hcap : cap.valid = true) : (State.resetWith n cap t0).Inv := by
  have hlen : (State.resetWith n cap t0).ctx.length = n := List.length_replicate
  exact ⟨hpos.trans_eq hlen.symm, hlen.trans_le hmax, hcap, fun c hc => .inl (List.eq_of_mem_replicate hc)⟩

/-- Settles O48: the invariant of `State.resetWith`, of which `State.reset` is the case the model chose. -/
theorem resetHasInvariant : Obligations.ResetHasInvariant :=
  ⟨fun _ _ t0 hpos hmax hcap => resetWith_inv t0 hpos hmax (valid_of_bytes_ge hcap),
    resetWith_inv Config.resetTime (by decide) (by decide) (by decide)⟩

/-! ## What a `FEED` leaves alone in its pass -/

/-- A `FEED` keeps the address key and the connection time of its context and the start time (10_state.md R35). -/
theorem feedPass_untouched (cid : Byte) (chunk : Bytes) (c : Context) (g : GlobalStats) (hp : c.phase = .connected) :
    (feedPass cid chunk c g).ctx.addrKey = c.addrKey ∧ (feedPass cid chunk c g).ctx.connTs = c.connTs ∧
    (feedPass cid chunk c g).g.startTime = g.startTime := by
  obtain ⟨fs, tail, -, -, ⟨-, hpass⟩ | ⟨-, hpass⟩⟩ := feedPass_cases cid chunk c g hp
  all_goals
    obtain ⟨haddr, hts, -, hstart⟩ := countFrames_untouched cid ⟨c, g, [], 0⟩ fs
    rw [hpass]
    exact ⟨haddr, hts, hstart⟩

/-! ## What a command can do -/

/-- A command without data bytes: neither `FEED` nor `DECODE` (30_encoding.md R115). -/
abbrev TakesNoData (i : Instr) : Prop := ∀ cid len, i ≠ .feed cid len ∧ i ≠ .decode cid len

/-- The context `OPEN` writes (43_framer.md R170). -/
def Context.opened (addrKey : AddrKey) (now : Time) : Context :=
  { Context.reset with phase := .connected, addrKey := addrKey, connTs := now }

/-- Every way a command can change the state `s`, with the conditions under which it does: `CommandEffect s i t` says
that `t` is what `i` may leave (10_state.md R35). -/
inductive CommandEffect (s : State) : Instr → State → Prop where
  /-- A command that waits for its bytes changes nothing (log 5). -/
  | waits {i : Instr} : CommandEffect s i s
  /-- A command that is rejected, or writes no state, removes its word and its data bytes and appends its records. -/
  | answers {i : Instr} {din : Bytes} {recs : List Record} (hdin : TakesNoData i → din = s.din) :
      CommandEffect s i (emit recs (retire { s with din := din }))
  /-- `OPEN` carried out (43_framer.md R170). -/
  | opens {cid : Byte} {addrKey : AddrKey} {c : Context} {recs : List Record}
      (hctx : s.ctx[cid.toNat]? = some c) (hclosed : c.phase = .closed) :
      CommandEffect s (.openConn cid addrKey)
        (emit recs (retire (writeContext s cid (Context.opened addrKey s.hostTime))))
  /-- `FEED` carried out (43_framer.md R171). -/
  | feeds {cid : Byte} {len : BitVec 32} {c : Context} {chunk rest : Bytes} {recs : List Record}
      (hdin : s.din = chunk ++ rest) (hlen : chunk.length = len.toNat)
      (hctx : s.ctx[cid.toNat]? = some c) (hopen : c.phase = .connected)
      (hroom : s.bufCap.admits (c.buf.length + chunk.length) = true) :
      CommandEffect s (.feed cid len)
        (emit recs (retire { writeContext s cid (feedPass cid chunk c s.g).ctx with
          g := (feedPass cid chunk c s.g).g, din := rest }))
  /-- `CLOSE` carried out (43_framer.md R181). -/
  | closes {cid : Byte} {reason : CloseReason} {c : Context} {recs : List Record}
      (hctx : s.ctx[cid.toNat]? = some c) (hopen : c.phase = .connected) :
      CommandEffect s (.closeConn cid reason) (emit recs (retire (writeContext s cid Context.reset)))

/-- A result that is a next state `i` may leave. -/
def HasEffect (s : State) (i : Instr) (r : Result) : Prop := ∃ t, r = .next t ∧ CommandEffect s i t

section
variable {s : State} {i : Instr} {d : Bytes}

theorem respond_hasEffect (hd : TakesNoData i → d = s.din) (recs : List Record) (op cid : Byte) (st : Status)
    (v : BitVec 64) : HasEffect s i (respond { s with din := d } recs op cid st v) := ⟨_, rfl, .answers hd⟩

theorem reject_hasEffect (hd : TakesNoData i → d = s.din) (op cid : Byte) (st : Status) :
    HasEffect s i (reject { s with din := d } op cid st) := respond_hasEffect hd ..

theorem takeDin_hasEffect {len : BitVec 32} {k : Bytes → State → Result}
    (hk : ∀ f rest, s.din = f ++ rest → f.length = len.toNat → HasEffect s i (k f { s with din := rest })) :
    HasEffect s i (takeDin s len k) := by
  obtain ⟨-, hwait⟩ | ⟨f, rest, hdin, hlen, hready⟩ := takeDin_cases s len k
  · exact ⟨s, hwait, .waits⟩
  · exact hready ▸ hk f rest hdin hlen

theorem withContext_hasEffect (hd : TakesNoData i → d = s.din) {op cid : Byte} {k : Context → Result}
    (hk : ∀ c, s.ctx[cid.toNat]? = some c → HasEffect s i (k c)) :
    HasEffect s i (withContext { s with din := d } op cid k) := by
  obtain ⟨-, hnone⟩ | ⟨c, hctx, hsome⟩ := withContext_cases { s with din := d } op cid k
  · exact hnone ▸ reject_hasEffect hd ..
  · exact hsome ▸ hk c hctx

theorem withOpenContext_hasEffect (hd : TakesNoData i → d = s.din) {op cid : Byte} {k : Context → Result}
    (hk : ∀ c, s.ctx[cid.toNat]? = some c → c.phase = .connected → HasEffect s i (k c)) :
    HasEffect s i (withOpenContext { s with din := d } op cid k) := by
  obtain ⟨-, hnone⟩ | ⟨c, -, -, hother⟩ | ⟨c, hctx, hopen, hconn⟩ :=
    withOpenContext_cases { s with din := d } op cid k
  · exact hnone ▸ reject_hasEffect hd ..
  · exact hother ▸ reject_hasEffect hd ..
  · exact hconn ▸ hk c hctx hopen

theorem withRoom_hasEffect (hd : TakesNoData i → d = s.din) {op cid : Byte} {n : Nat} {k : Result}
    (hk : s.bufCap.admits n = true → HasEffect s i k) :
    HasEffect s i (withRoom { s with din := d } op cid n k) := by
  obtain ⟨-, hfull⟩ | ⟨hroom, hfits⟩ := withRoom_cases { s with din := d } op cid n k
  · exact hfull ▸ reject_hasEffect hd ..
  · rw [hfits]
    exact hk hroom

/-- The Frame Decoder writes no state, whatever its outcome (42_decode.md R156). -/
theorem decodeBytes_hasEffect (hd : TakesNoData i → d = s.din) (cid : Byte) (f : Bytes) :
    HasEffect s i (decodeBytes cid f { s with din := d }) := by
  refine withRoom_hasEffect hd fun _ => ?_
  split
  · exact respond_hasEffect hd ..
  · exact respond_hasEffect hd ..
  · exact respond_hasEffect hd ..

end

theorem not_takesNoData_feed (cid : Byte) (len : BitVec 32) : ¬ TakesNoData (.feed cid len) :=
  fun h => (h cid len).1 rfl

theorem not_takesNoData_decode (cid : Byte) (len : BitVec 32) : ¬ TakesNoData (.decode cid len) :=
  fun h => (h cid len).2 rfl

theorem execOpen_hasEffect (cid : Byte) (addrKey : AddrKey) (s : State) :
    HasEffect s (.openConn cid addrKey) (execOpen cid addrKey s) := by
  refine withContext_hasEffect (d := s.din) (fun _ => rfl) fun c hctx => ?_
  split
  next hclosed => exact ⟨_, rfl, .opens hctx hclosed⟩
  next => exact reject_hasEffect (d := s.din) (fun _ => rfl) ..

theorem execFeed_hasEffect (cid : Byte) (len : BitVec 32) (s : State) :
    HasEffect s (.feed cid len) (execFeed cid len s) := by
  refine takeDin_hasEffect fun chunk rest hdin hlen => ?_
  have hd : TakesNoData (.feed cid len) → rest = s.din := fun h => absurd h (not_takesNoData_feed cid len)
  refine withOpenContext_hasEffect hd fun c hctx hopen => withRoom_hasEffect hd fun hroom => ?_
  exact ⟨_, rfl, .feeds hdin hlen hctx hopen (hlen ▸ hroom)⟩

theorem execClose_hasEffect (cid : Byte) (reason : CloseReason) (s : State) :
    HasEffect s (.closeConn cid reason) (execClose cid reason s) :=
  withOpenContext_hasEffect (d := s.din) (fun _ => rfl) fun _ hctx hopen => ⟨_, rfl, .closes hctx hopen⟩

theorem execDecode_hasEffect (cid : Byte) (len : BitVec 32) (s : State) :
    HasEffect s (.decode cid len) (execDecode cid len s) :=
  takeDin_hasEffect fun f _ _ _ =>
    decodeBytes_hasEffect (fun h => absurd h (not_takesNoData_decode cid len)) cid f

theorem readField_hasEffect (i : Instr) (cid : Byte) (val : Context → BitVec 64) (s : State) :
    HasEffect s i (readField cid val s) :=
  withContext_hasEffect (d := s.din) (fun _ => rfl) fun _ _ => respond_hasEffect (d := s.din) (fun _ => rfl) ..

theorem exec_hasEffect (i : Instr) (s : State) : HasEffect s i (exec i s) := by
  cases i with
  | openConn cid addrKey => exact execOpen_hasEffect cid addrKey s
  | feed cid len => exact execFeed_hasEffect cid len s
  | closeConn cid reason => exact execClose_hasEffect cid reason s
  | decode cid len => exact execDecode_hasEffect cid len s
  | nop | bcd6 | unpkRtp0 | unpkRtp1 | unpkDt => exact respond_hasEffect (d := s.din) (fun _ => rfl) ..
  | rdstatStartTime | rdstatTotalPkts | rdstatTotalBytes | rdstatIframeCnt | rdstatPframeCnt =>
    exact respond_hasEffect (d := s.din) (fun _ => rfl) ..
  | rdstatConnStatus | rdstatBufLen | rdstatPktCnt | rdstatByteCnt | rdstatDevId | rdstatChannel
  | rdstatAddrKey | rdstatConnTs => exact readField_hasEffect ..
  | frameHdr hdr => exact decodeBytes_hasEffect (d := s.din) (fun _ => rfl) ..

/-- The inversion of `exec`. -/
theorem exec_effect {i : Instr} {s t : State} (h : exec i s = .next t) : CommandEffect s i t := by
  obtain ⟨u, hu, heffect⟩ := exec_hasEffect i s
  cases hu.symm.trans h
  exact heffect

/-! ## What a command leaves alone -/

namespace CommandEffect

variable {s t : State} {i : Instr}

theorem bufCap_eq (h : CommandEffect s i t) : t.bufCap = s.bufCap := by
  cases h <;> rfl

theorem hostTime_eq (h : CommandEffect s i t) : t.hostTime = s.hostTime := by
  cases h <;> rfl

theorem ctx_length (h : CommandEffect s i t) : t.ctx.length = s.ctx.length := by
  cases h with
  | waits | answers => rfl
  | opens | feeds | closes => exact List.length_set

theorem ctx_other (h : CommandEffect s i t) {k : Nat} (hk : k ≠ (echoCid i).toNat) : t.ctx[k]? = s.ctx[k]? := by
  cases h with
  | waits | answers => rfl
  | opens | feeds | closes => exact List.getElem?_set_ne hk.symm

theorem ctx_eq (h : CommandEffect s i t) (hi : writesContext i = false) : t.ctx = s.ctx := by
  cases h with
  | waits | answers => rfl
  | opens | feeds | closes => cases hi

/-- `OPEN` and `CLOSE` write their context, `FEED` alone writes `G`. -/
theorem g_eq (h : CommandEffect s i t) (hi : writesGlobal i = false) : t.g = s.g := by
  cases h with
  | waits | answers | opens | closes => rfl
  | feeds => cases hi

theorem startTime_eq (h : CommandEffect s i t) : t.g.startTime = s.g.startTime := by
  cases h with
  | waits | answers | opens | closes => rfl
  | feeds _ _ _ hopen =>
    obtain ⟨-, -, hstart⟩ := feedPass_untouched _ _ _ s.g hopen
    exact hstart

theorem din_eq (h : CommandEffect s i t) (hi : TakesNoData i) : t.din = s.din := by
  cases h with
  | waits | opens | closes => rfl
  | answers hdin => exact hdin hi
  | feeds => exact absurd hi (not_takesNoData_feed _ _)

/-- A `FEED` leaves the address key and the connection time of its own context alone (10_state.md R35). -/
theorem feed_key_time {cid : Byte} {len : BitVec 32} {c c' : Context} (h : CommandEffect s (.feed cid len) t)
    (hc : s.ctx[cid.toNat]? = some c) (hc' : t.ctx[cid.toNat]? = some c') :
    c'.addrKey = c.addrKey ∧ c'.connTs = c.connTs := by
  cases h with
  | waits | answers =>
    obtain rfl : c = c' := Option.some.inj (hc.symm.trans hc')
    exact ⟨rfl, rfl⟩
  | @feeds _ _ d chunk _ _ _ _ hctx hopen _ =>
    obtain rfl : d = c := Option.some.inj (hctx.symm.trans hc)
    obtain ⟨hlt, -⟩ := List.getElem?_eq_some_iff.mp hctx
    obtain rfl : (feedPass cid chunk d s.g).ctx = c' := by simpa [hlt] using hc'
    obtain ⟨haddr, hts, -⟩ := feedPass_untouched cid chunk d s.g hopen
    exact ⟨haddr, hts⟩

/-- The appended chunk was checked against the capacity; what `OPEN` and `CLOSE` write has an empty buffer. -/
theorem memoryWf_next (h : CommandEffect s i t) (hs : memoryWf s = true) : memoryWf t = true := by
  cases h with
  | waits | answers => exact hs
  | opens => exact memoryWf_writeContext hs (fits_clearBuf s.bufCap (Context.opened _ _))
  | feeds _ _ _ hopen hroom => exact memoryWf_writeContext hs (fits_feedPass hopen hroom)
  | closes => exact memoryWf_writeContext hs (fits_clearBuf s.bufCap Context.reset)

end CommandEffect

/-- Settles O50: each clause is what the effect of a command leaves alone. -/
theorem commandTouchesOnlyItsContext : Obligations.CommandTouchesOnlyItsContext := by
  intro i s t hexec
  have heffect := exec_effect hexec
  refine ⟨heffect.ctx_length, heffect.bufCap_eq, fun _ => heffect.ctx_other, heffect.ctx_eq, ?_,
    heffect.g_eq, heffect.startTime_eq, heffect.hostTime_eq, heffect.din_eq⟩
  rintro cid len c c' rfl hc hc'
  exact heffect.feed_key_time hc hc'

/-! ## What a step can do -/

/-- Every way a step can change the state `s`, by the next host event (log 4). -/
inductive StepEffect (s : State) : State → Prop where
  /-- With nothing queued FRP is idle (60_exceptions.md R240; log 11). -/
  | idles (hhost : s.host = []) : StepEffect s s
  | sets_time {v : Time} {rest : List HostEvent} (hhost : s.host = .time v :: rest) :
      StepEffect s (setTime v (retire s))
  | resets {rest : List HostEvent} (hhost : s.host = .reset :: rest) : StepEffect s (resetState (retire s))
  | commands {w : InputWord} {rest : List HostEvent} {i : Instr} {t : State} (hhost : s.host = .word w :: rest)
      (hdecode : decode w = .ok i) (heffect : CommandEffect s i t) : StepEffect s t
  /-- A word that is no instruction is answered and changes nothing else (60_exceptions.md R228, R229). -/
  | rejects {w : InputWord} {rest : List HostEvent} {e : DecodeError} {recs : List Record}
      (hhost : s.host = .word w :: rest) (hdecode : decode w = .error e) : StepEffect s (emit recs (retire s))

theorem rejectWord_next (e : DecodeError) (s : State) : ∃ recs, rejectWord e s = .next (emit recs (retire s)) := by
  cases e with
  | illegalOp => exact ⟨_, rfl⟩
  | badOperand => exact ⟨_, rfl⟩
  | badMagic => exact ⟨_, rfl⟩

/-- The inversion of `step`. -/
theorem step_effect {s t : State} (h : step s = .next t) : StepEffect s t := by
  cases hhost : s.host with
  | nil =>
    cases (step_nil hhost).symm.trans h
    exact .idles hhost
  | cons event rest =>
    cases event with
    | time v =>
      cases (step_time hhost).symm.trans h
      exact .sets_time hhost
    | reset =>
      cases (step_reset hhost).symm.trans h
      exact .resets hhost
    | word w =>
      cases hdecode : decode w with
      | ok i => exact .commands hhost hdecode (exec_effect ((step_word_ok hhost hdecode).symm.trans h))
      | error e =>
        obtain ⟨recs, hreject⟩ := rejectWord_next e s
        cases ((step_word_error hhost hdecode).trans hreject).symm.trans h
        exact .rejects hhost hdecode

namespace StepEffect

variable {s t : State}

theorem bufCap_eq (h : StepEffect s t) : t.bufCap = s.bufCap := by
  cases h with
  | idles | sets_time | resets | rejects => rfl
  | commands _ _ heffect => exact heffect.bufCap_eq

theorem memoryWf_next (h : StepEffect s t) (hs : memoryWf s = true) : memoryWf t = true := by
  cases h with
  | idles | sets_time | rejects => exact hs
  | resets => exact memoryWf_resetState _
  | commands _ _ heffect => exact heffect.memoryWf_next hs

end StepEffect

/-- Settles O49: the reset state has the form, and what a step can do keeps it and the capacity. -/
theorem stepKeepsBuffersWithinCapacity : Obligations.StepKeepsBuffersWithinCapacity :=
  ⟨memoryWf_reset, fun _ _ hstep => (step_effect hstep).bufCap_eq,
    fun _ _ hs hstep => (step_effect hstep).memoryWf_next hs⟩

end Sys2Proof.Machine

/-! PROOFS. Connections do not interfere (20_memory.md R70; 60_exceptions.md R234, R238): from two states that agree on
a command's own context and on its inputs, each shared operation, and so each command, answers alike. -/

namespace Sys2Proof.Machine

/-! ## A `FEED` does not read `G` -/

/-- Counting frames from other statistics gives the same pass, up to the statistics. -/
theorem countFrames_otherGlobal (cid : Byte) (p : Pass) (g : GlobalStats) (fs : List Bytes) :
    ∃ g', countFrames cid { p with g := g } fs = { countFrames cid p fs with g := g' } := by
  induction fs generalizing p g with
  | nil => exact ⟨g, rfl⟩
  | cons f fs ih => exact ih (countFrame cid p f) (recordFrame (headerFields f).dataType f.length g)

/-- A `FEED` on other statistics has the same pass, up to the statistics. -/
theorem feedPass_otherGlobal (cid : Byte) (chunk : Bytes) {c : Context} (g₁ g₂ : GlobalStats)
    (hp : c.phase = .connected) : ∃ g', feedPass cid chunk c g₂ = { feedPass cid chunk c g₁ with g := g' } := by
  obtain ⟨fs, tail, hcut, hfs, htail⟩ := exists_cut (c.buf ++ chunk)
  obtain ⟨g', hcount⟩ := countFrames_otherGlobal cid ⟨c, g₁, [], 0⟩ g₂ fs
  refine ⟨g', ?_⟩
  cases htail with
  | inl hkeep =>
    rw [feedPass_keep cid chunk c g₁ fs tail hp hcut hfs hkeep,
      feedPass_keep cid chunk c g₂ fs tail hp hcut hfs hkeep, hcount]
    rfl
  | inr hbad =>
    rw [feedPass_clear cid chunk c g₁ fs tail hp hcut hfs hbad,
      feedPass_clear cid chunk c g₂ fs tail hp hcut hfs hbad, hcount]
    rfl

/-! ## Agreeing states, answering alike -/

/-- Two states agree on what a command on connection `cid` reads: its context (or both lack it), data-in, the time and
the capacity. They may differ in every other context, in `G`, in the queue and in the records emitted. -/
structure AgreeOn (cid : Byte) (a b : State) : Prop where
  ctx : a.ctx[cid.toNat]? = b.ctx[cid.toNat]?
  din : a.din = b.din
  hostTime : a.hostTime = b.hostTime
  bufCap : a.bufCap = b.bufCap

/-- Two results, from `a` and from `b`, are next states with the same records appended, the same data-in and the same
context of `cid`. -/
def AnswerAlike (cid : Byte) (a b : State) (ra rb : Result) : Prop :=
  ∃ (ta tb : State) (recs : List Record), ra = .next ta ∧ rb = .next tb ∧
    ta.out = a.out ++ recs ∧ tb.out = b.out ++ recs ∧ tb.din = ta.din ∧ tb.ctx[cid.toNat]? = ta.ctx[cid.toNat]?

section
variable {cid : Byte} {a b : State}

namespace AgreeOn

theorem withDin (h : AgreeOn cid a b) (d : Bytes) : AgreeOn cid { a with din := d } { b with din := d } :=
  ⟨h.ctx, rfl, h.hostTime, h.bufCap⟩

theorem withGlobal (h : AgreeOn cid a b) (ga gb : GlobalStats) : AgreeOn cid { a with g := ga } { b with g := gb } :=
  ⟨h.ctx, h.din, h.hostTime, h.bufCap⟩

/-- The own context exists in both states or in neither, and a write to it reaches both. -/
theorem writeContext (h : AgreeOn cid a b) (c : Context) :
    AgreeOn cid (writeContext a cid c) (writeContext b cid c) where
  ctx := by
    rw [writeContext_ctx, writeContext_ctx, List.getElem?_set_self', List.getElem?_set_self', h.ctx]
  din := h.din
  hostTime := h.hostTime
  bufCap := h.bufCap

end AgreeOn

theorem respond_alike (h : AgreeOn cid a b) (recs : List Record) (op echoed : Byte) (st : Status) (v : BitVec 64) :
    AnswerAlike cid a b (respond a recs op echoed st v) (respond b recs op echoed st v) :=
  ⟨_, _, recs ++ [.rsp op echoed st v], rfl, rfl, rfl, rfl, h.din.symm, h.ctx.symm⟩

theorem reject_alike (h : AgreeOn cid a b) (op echoed : Byte) (st : Status) :
    AnswerAlike cid a b (reject a op echoed st) (reject b op echoed st) := respond_alike h ..

/-- Both states wait for their bytes, or both go on with the same bytes taken. -/
theorem takeDin_alike (h : AgreeOn cid a b) {len : BitVec 32} {k : Bytes → State → Result}
    (hk : ∀ f rest, AnswerAlike cid a b (k f { a with din := rest }) (k f { b with din := rest })) :
    AnswerAlike cid a b (takeDin a len k) (takeDin b len k) := by
  obtain ⟨hshort, hwait⟩ | ⟨f, rest, hdin, hlen, hready⟩ := takeDin_cases a len k
  · rw [hwait, takeDin_wait k (h.din ▸ hshort)]
    exact ⟨a, b, [], rfl, rfl, (List.append_nil _).symm, (List.append_nil _).symm, h.din.symm, h.ctx.symm⟩
  · rw [hready, takeDin_ready k (h.din ▸ hdin) hlen]
    exact hk f rest

/-- Both states lack the context, or both go on with the same one. -/
theorem withContext_alike (h : AgreeOn cid a b) {op : Byte} {ka kb : Context → Result}
    (hk : ∀ c, AnswerAlike cid a b (ka c) (kb c)) :
    AnswerAlike cid a b (withContext a op cid ka) (withContext b op cid kb) := by
  cases hctx : a.ctx[cid.toNat]? with
  | none =>
    rw [withContext_none ka (List.getElem?_eq_none_iff.mp hctx),
      withContext_none kb (List.getElem?_eq_none_iff.mp (h.ctx ▸ hctx))]
    exact reject_alike h ..
  | some c =>
    rw [withContext_some ka hctx, withContext_some kb (h.ctx ▸ hctx)]
    exact hk c

theorem withOpenContext_alike (h : AgreeOn cid a b) {op : Byte} {ka kb : Context → Result}
    (hk : ∀ c, c.phase = .connected → AnswerAlike cid a b (ka c) (kb c)) :
    AnswerAlike cid a b (withOpenContext a op cid ka) (withOpenContext b op cid kb) := by
  refine withContext_alike h fun c => ?_
  by_cases hopen : c.phase = .connected
  · simpa only [if_pos hopen] using hk c hopen
  · simpa only [if_neg hopen] using reject_alike h ..

theorem withRoom_alike (h : AgreeOn cid a b) {op echoed : Byte} {n : Nat} {ka kb : Result}
    (hk : AnswerAlike cid a b ka kb) :
    AnswerAlike cid a b (withRoom a op echoed n ka) (withRoom b op echoed n kb) := by
  obtain ⟨hroom, hfull⟩ | ⟨hroom, hfits⟩ := withRoom_cases a op echoed n ka
  · rw [hfull, withRoom_full kb (h.bufCap ▸ hroom)]
    exact reject_alike h ..
  · rw [hfits, withRoom_fits kb (h.bufCap ▸ hroom)]
    exact hk

/-! ## The meanings answer alike -/

/-- `OPEN` writes the key it is given and the time, on which the states agree (43_framer.md R170). -/
theorem execOpen_alike (h : AgreeOn cid a b) (addrKey : AddrKey) :
    AnswerAlike cid a b (execOpen cid addrKey a) (execOpen cid addrKey b) := by
  refine withContext_alike h fun c => ?_
  by_cases hclosed : c.phase = .closed
  · simp only [if_pos hclosed, h.hostTime]
    exact respond_alike (h.writeContext _) ..
  · simpa only [if_neg hclosed] using reject_alike h ..

theorem execFeed_alike (h : AgreeOn cid a b) (len : BitVec 32) :
    AnswerAlike cid a b (execFeed cid len a) (execFeed cid len b) := by
  refine takeDin_alike h fun chunk rest => ?_
  have hrest := h.withDin rest
  refine withOpenContext_alike hrest fun c hopen => withRoom_alike hrest ?_
  obtain ⟨g', hpass⟩ := feedPass_otherGlobal cid chunk a.g b.g hopen
  simp only [hpass]
  exact respond_alike ((hrest.writeContext _).withGlobal _ g') ..

theorem execClose_alike (h : AgreeOn cid a b) (reason : CloseReason) :
    AnswerAlike cid a b (execClose cid reason a) (execClose cid reason b) :=
  withOpenContext_alike h fun _ _ => respond_alike (h.writeContext Context.reset) ..

/-- The Frame Decoder's outcome depends on its bytes alone (42_decode.md R156). -/
theorem decodeBytes_alike (h : AgreeOn cid a b) (echoed : Byte) (f : Bytes) :
    AnswerAlike cid a b (decodeBytes echoed f a) (decodeBytes echoed f b) := by
  refine withRoom_alike h ?_
  cases decodeFrame f with
  | fail c => exact respond_alike h ..
  | ok frame mismatch =>
    cases mismatch with
    | false => exact respond_alike h ..
    | true => exact respond_alike h ..

theorem execDecode_alike (h : AgreeOn cid a b) (len : BitVec 32) :
    AnswerAlike cid a b (execDecode cid len a) (execDecode cid len b) :=
  takeDin_alike h fun f rest => decodeBytes_alike (h.withDin rest) cid f

theorem readField_alike (h : AgreeOn cid a b) (val : Context → BitVec 64) :
    AnswerAlike cid a b (readField cid val a) (readField cid val b) :=
  withContext_alike h fun _ => respond_alike h ..

end

/-- Every instruction that reads no field of `G` answers alike from states that agree on its own connection. -/
theorem exec_alike {i : Instr} {a b : State} (hi : readsGlobal i = false) (h : AgreeOn (echoCid i) a b) :
    AnswerAlike (echoCid i) a b (exec i a) (exec i b) := by
  cases i with
  | openConn cid addrKey => exact execOpen_alike h addrKey
  | feed cid len => exact execFeed_alike h len
  | closeConn cid reason => exact execClose_alike h reason
  | decode cid len => exact execDecode_alike h len
  | nop | bcd6 | unpkRtp0 | unpkRtp1 | unpkDt => exact respond_alike h ..
  | rdstatStartTime | rdstatTotalPkts | rdstatTotalBytes | rdstatIframeCnt | rdstatPframeCnt => cases hi
  | rdstatConnStatus | rdstatBufLen | rdstatPktCnt | rdstatByteCnt | rdstatDevId | rdstatChannel
  | rdstatAddrKey | rdstatConnTs => exact readField_alike h _
  | frameHdr hdr => exact decodeBytes_alike h 0#8 (headerBytes hdr)

/-- Settles O52: the two answers of `exec_alike`, the first of which is the given one. -/
theorem connectionsDoNotInterfere : Obligations.ConnectionsDoNotInterfere := by
  intro i s₁ s₂ t₁ recs hi hctx hdin htime hcap hexec hout
  obtain ⟨ta, tb, recs', ha, hb, haout, hbout, hdin', hctx'⟩ := exec_alike hi ⟨hctx, hdin, htime, hcap⟩
  cases ha.symm.trans hexec
  obtain rfl : recs' = recs := List.append_cancel_left (haout.symm.trans hout)
  exact ⟨tb, hb, hbout, hdin', hctx'⟩

end Sys2Proof.Machine

/-! PROOFS. The decoder and the encoder (30_encoding.md R90, R105 to R108): the fields of a command word and of a
header word, the decoder by the operation code, and the rows of the opcode table. -/

namespace Sys2Proof

/-! ## Concatenations -/

theorem toNat_append_eq {m n : Nat} (a : BitVec m) (b : BitVec n) : (a ++ b).toNat = a.toNat * 2 ^ n + b.toNat := by
  rw [BitVec.toNat_append, ← Nat.shiftLeft_add_eq_or_of_lt b.isLt, Nat.shiftLeft_eq]

theorem append_inj_iff {m n : Nat} {a a' : BitVec m} {b b' : BitVec n} : a ++ b = a' ++ b' ↔ a = a' ∧ b = b' := by
  refine ⟨fun h => ⟨?_, ?_⟩, fun ⟨ha, hb⟩ => by rw [ha, hb]⟩
  · simpa [bits_append_high, bits_self] using congrArg (bits · n m) h
  · simpa [bits_append_low, bits_self] using congrArg (bits · 0 n) h

/-! ## The fields of a command word -/

@[simp] theorem bits_commandWord_op (op cid : Byte) (arg : BitVec 64) : bits (commandWord op cid arg) 72 8 = op :=
  (bits_commandWord op cid arg).1

@[simp] theorem bits_commandWord_cid (op cid : Byte) (arg : BitVec 64) : bits (commandWord op cid arg) 64 8 = cid :=
  (bits_commandWord op cid arg).2.1

@[simp] theorem bits_commandWord_arg (op cid : Byte) (arg : BitVec 64) : bits (commandWord op cid arg) 0 64 = arg :=
  (bits_commandWord op cid arg).2.2

theorem commandWord_toNat (op cid : Byte) (arg : BitVec 64) :
    (commandWord op cid arg).toNat = op.toNat * 2 ^ 72 + cid.toNat * 2 ^ 64 + arg.toNat := by
  rw [commandWord, toNat_append_eq, toNat_append_eq]
  ring

/-- Every 80-bit word is the command word of its three fields. -/
theorem commandWord_bits (cw : BitVec 80) : commandWord (bits cw 72 8) (bits cw 64 8) (bits cw 0 64) = cw := by
  apply BitVec.eq_of_toNat_eq
  have := cw.isLt
  rw [commandWord_toNat, bits_toNat, bits_toNat, bits_toNat]
  omega

/-- The layout and the byte of an `UNPK`'s argument. -/
theorem bits_unpkArg (layout : BitVec 2) (byte : Byte) :
    bits (unpkArg layout byte) 8 2 = layout ∧ bits (unpkArg layout byte) 0 8 = byte := by
  revert layout byte
  decide

/-! ## The decoder, by the operation code -/

section
variable (cid : Byte) (arg : BitVec 64)

theorem decode_nop : decode (.cmd80 (commandWord opNop cid arg)) = .ok (.nop cid) := by
  simp [decode, decodeCommand, opNop]

theorem decode_open : decode (.cmd80 (commandWord opOpen cid arg)) = .ok (.openConn cid arg) := by
  simp [decode, decodeCommand, opOpen]

theorem decode_feed : decode (.cmd80 (commandWord opFeed cid arg)) = .ok (.feed cid (bits arg 0 32)) := by
  simp [decode, decodeCommand, opFeed]

theorem decode_close :
    decode (.cmd80 (commandWord opClose cid arg)) = .ok (.closeConn cid (decodeReason (bits arg 0 1))) := by
  simp [decode, decodeCommand, opClose]

theorem decode_decode : decode (.cmd80 (commandWord opDecode cid arg)) = .ok (.decode cid (bits arg 0 32)) := by
  simp [decode, decodeCommand, opDecode]

theorem decode_bcd6 : decode (.cmd80 (commandWord opBcd6 cid arg)) = .ok (.bcd6 cid (bits arg 0 48)) := by
  simp [decode, decodeCommand, opBcd6]

theorem decode_unpk : decode (.cmd80 (commandWord opUnpk cid arg)) = decodeUnpk cid arg := by
  simp [decode, decodeCommand, opUnpk]

theorem decode_rdstat : decode (.cmd80 (commandWord opRdstat cid arg)) = decodeRdstat cid arg := by
  simp [decode, decodeCommand, opRdstat]

end

/-- `UNPK` reads nothing of the argument but the layout and the byte. -/
theorem decodeUnpk_eq {cid : Byte} {arg : BitVec 64} {layout : BitVec 2} (h : bits arg 8 2 = layout) :
    decodeUnpk cid arg = decodeUnpk cid (unpkArg layout (bits arg 0 8)) := by
  obtain ⟨hlayout, hbyte⟩ := bits_unpkArg layout (bits arg 0 8)
  simp only [decodeUnpk, h, hlayout, hbyte]

theorem decodeUnpk_rtp0 (cid byte : Byte) : decodeUnpk cid (unpkArg 0#2 byte) = .ok (.unpkRtp0 cid byte) := by
  simp [decodeUnpk, bits_unpkArg]

theorem decodeUnpk_rtp1 (cid byte : Byte) : decodeUnpk cid (unpkArg 1#2 byte) = .ok (.unpkRtp1 cid byte) := by
  simp [decodeUnpk, bits_unpkArg]

theorem decodeUnpk_dt (cid byte : Byte) : decodeUnpk cid (unpkArg 2#2 byte) = .ok (.unpkDt cid byte) := by
  simp [decodeUnpk, bits_unpkArg]

/-- `RDSTAT` reads nothing of the argument but the selector. -/
theorem decodeRdstat_eq {cid : Byte} {arg sel : BitVec 64} (h : bits arg 0 8 = bits sel 0 8) :
    decodeRdstat cid arg = decodeRdstat cid sel := by
  simp only [decodeRdstat, h]

/-! ## The header word -/

/-- No bit of a header word is lost: its fields are adjacent and cover it (30_encoding.md R90). -/
theorem headerWord_headerOfWord (w : BitVec 272) : headerWord (headerOfWord w) = w := by
  simp only [headerWord, headerOfWord, bits]
  repeat rw [BitVec.extractLsb'_append_extractLsb'_eq_extractLsb' (by rfl)]
  exact BitVec.extractLsb'_eq_self

theorem headerWord_inj {h h' : FrameHeader} (hw : headerWord h = headerWord h') : h = h' := by
  unfold headerWord at hw
  repeat rw [append_inj_iff] at hw
  cases h
  cases h'
  simpa using hw

theorem headerOfWord_headerWord (h : FrameHeader) : headerOfWord (headerWord h) = h :=
  headerWord_inj (headerWord_headerOfWord (headerWord h))

theorem decode_frameHdr {w : BitVec 272} (h : bits w 240 32 = Config.magic) :
    decode (.wire34 w) = .ok (.frameHdr (headerOfWord w)) := if_pos h

theorem decode_badMagic {w : BitVec 272} (h : bits w 240 32 ≠ Config.magic) :
    decode (.wire34 w) = .error (.badMagic w) := if_neg h

/-- The first four bytes of a header word are its top 32 bits (30_encoding.md R90). -/
theorem bits_magic_eq_iff (w : BitVec 272) : bits w 240 32 = Config.magic ↔ w.toNat / 2 ^ 240 = 0x30316364 := by
  have htop : (bits w 240 32).toNat = w.toNat / 2 ^ 240 := by
    have := w.isLt
    rw [bits_toNat]
    omega
  rw [← htop, ← BitVec.toNat_inj]
  rfl

/-! ## What is encoded decodes to itself -/

theorem decodeReason_encodeReason (reason : CloseReason) : decodeReason (encodeReason reason) = reason := by
  cases reason with
  | eof => rfl
  | err => rfl

/-- Settles O1, by the instruction's constructor: the decoder's equation for its operation code, and the operand read
back from its bits; a frame header by `headerOfWord_headerWord`. -/
theorem decodeInvertsEncode : Obligations.DecodeInvertsEncode := by
  intro i hwf
  cases i with
  | nop cid => exact decode_nop cid _
  | openConn cid addrKey => exact decode_open cid addrKey
  | feed cid len => exact (decode_feed cid _).trans (by rw [bits_setWidth len (by decide)])
  | closeConn cid reason =>
    exact (decode_close cid _).trans (by rw [bits_setWidth _ (by decide), decodeReason_encodeReason])
  | decode cid len => exact (decode_decode cid _).trans (by rw [bits_setWidth len (by decide)])
  | bcd6 cid bytes => exact (decode_bcd6 cid _).trans (by rw [bits_setWidth bytes (by decide)])
  | unpkRtp0 cid byte => exact (decode_unpk cid _).trans (decodeUnpk_rtp0 cid byte)
  | unpkRtp1 cid byte => exact (decode_unpk cid _).trans (decodeUnpk_rtp1 cid byte)
  | unpkDt cid byte => exact (decode_unpk cid _).trans (decodeUnpk_dt cid byte)
  | rdstatStartTime cid | rdstatTotalPkts cid | rdstatTotalBytes cid | rdstatIframeCnt cid | rdstatPframeCnt cid
  | rdstatConnStatus cid | rdstatBufLen cid | rdstatPktCnt cid | rdstatByteCnt cid | rdstatDevId cid
  | rdstatChannel cid | rdstatAddrKey cid | rdstatConnTs cid => exact decode_rdstat cid _
  | frameHdr hdr =>
    have hmagic : (headerOfWord (headerWord hdr)).magic = Config.magic := by
      rw [headerOfWord_headerWord]
      simpa [Instr.wellFormed, FrameHeader.wellFormed] using hwf
    exact (decode_frameHdr hmagic).trans (by rw [headerOfWord_headerWord])

/-- Settles O4: the two branches of the header decoder, and `headerWord_headerOfWord`. -/
theorem headerWordKeepsEveryBit : Obligations.HeaderWordKeepsEveryBit := by
  intro w
  refine ⟨fun h => ?_, fun h => decode_badMagic (mt (bits_magic_eq_iff w).mp h)⟩
  exact ⟨_, decode_frameHdr ((bits_magic_eq_iff w).mpr h), congrArg InputWord.wire34 (headerWord_headerOfWord w)⟩

/-! ## Every operand from its own bits -/

/-- A word written out in plain arithmetic is the command word of its parts. -/
theorem ofNat_eq_commandWord (op cid : Byte) (arg : BitVec 64) :
    BitVec.ofNat 80 (op.toNat * 2 ^ 72 + cid.toNat * 2 ^ 64 + arg.toNat) = commandWord op cid arg := by
  rw [← commandWord_toNat, BitVec.ofNat_toNat, BitVec.setWidth_eq]

/-- The low bits of an argument, in plain arithmetic. -/
theorem bits_low_eq (arg : BitVec 64) (len : Nat) : bits arg 0 len = BitVec.ofNat len (arg.toNat % 2 ^ len) := by
  apply BitVec.eq_of_toNat_eq
  simp [bits_toNat]

theorem bits_layout_eq {arg : BitVec 64} {layout : BitVec 2} (h : arg.toNat / 256 % 4 = layout.toNat) :
    bits arg 8 2 = layout :=
  BitVec.eq_of_toNat_eq ((bits_toNat arg 8 2).trans h)

theorem bits_selector_eq {arg sel : BitVec 64} (h : arg.toNat % 256 = sel.toNat % 256) :
    bits arg 0 8 = bits sel 0 8 := by
  rw [bits_low_eq, bits_low_eq]
  exact congrArg (BitVec.ofNat 8) h

theorem decodeReason_low_bit (arg : BitVec 64) :
    decodeReason (bits arg 0 1) = if arg.toNat % 2 = 0 then .eof else .err := by
  have hbit : bits arg 0 1 = 0#1 ↔ arg.toNat % 2 = 0 := by
    rw [← BitVec.toNat_inj, bits_toNat]
    simp
  simp only [decodeReason, hbit]

/-- Settles O3: each word is a command word of its parts, and the decoder's equation for its operation code reads the
operand; `UNPK` by its layout, `RDSTAT` by its selector. -/
theorem commandWordFieldsRead : Obligations.CommandWordFieldsRead := by
  intro cid arg word
  have hword : ∀ op : Byte, word op.toNat = .cmd80 (commandWord op cid arg) :=
    fun op => congrArg InputWord.cmd80 (ofNat_eq_commandWord op cid arg)
  have hunpk : ∀ layout : BitVec 2, arg.toNat / 256 % 4 = layout.toNat →
      decode (word 6) = decodeUnpk cid (unpkArg layout (BitVec.ofNat 8 (arg.toNat % 2 ^ 8))) := fun layout h =>
    calc decode (word 6) = decode (.cmd80 (commandWord opUnpk cid arg)) := congrArg decode (hword opUnpk)
      _ = decodeUnpk cid arg := decode_unpk cid arg
      _ = _ := by rw [decodeUnpk_eq (bits_layout_eq h), bits_low_eq]
  have hrdstat : ∀ sel : BitVec 64, arg.toNat % 256 = sel.toNat % 256 →
      decode (word 7) = decodeRdstat cid sel := fun sel h =>
    calc decode (word 7) = decode (.cmd80 (commandWord opRdstat cid arg)) := congrArg decode (hword opRdstat)
      _ = decodeRdstat cid arg := decode_rdstat cid arg
      _ = decodeRdstat cid sel := decodeRdstat_eq (bits_selector_eq h)
  refine ⟨?_, ?_, ?_, ?_, ?_, ?_, fun h => ?_, fun h => ?_, fun h => ?_,
    hrdstat 0x00#64, hrdstat 0x01#64, hrdstat 0x02#64, hrdstat 0x03#64, hrdstat 0x04#64, hrdstat 0x10#64,
    hrdstat 0x11#64, hrdstat 0x12#64, hrdstat 0x13#64, hrdstat 0x14#64, hrdstat 0x15#64, hrdstat 0x16#64,
    hrdstat 0x17#64⟩
  · exact (congrArg decode (hword opNop)).trans (decode_nop cid arg)
  · exact (congrArg decode (hword opOpen)).trans (decode_open cid arg)
  · exact (congrArg decode (hword opFeed)).trans ((decode_feed cid arg).trans (by rw [bits_low_eq]))
  · exact (congrArg decode (hword opClose)).trans ((decode_close cid arg).trans (by rw [decodeReason_low_bit]))
  · exact (congrArg decode (hword opDecode)).trans ((decode_decode cid arg).trans (by rw [bits_low_eq]))
  · exact (congrArg decode (hword opBcd6)).trans ((decode_bcd6 cid arg).trans (by rw [bits_low_eq]))
  · exact (hunpk 0#2 h).trans (decodeUnpk_rtp0 ..)
  · exact (hunpk 1#2 h).trans (decodeUnpk_rtp1 ..)
  · exact (hunpk 2#2 h).trans (decodeUnpk_dt ..)

end Sys2Proof

/-! PROOFS. The rows of spec/opcode_table.json (30_encoding.md R105 to R108): each 80-bit row selects, among all
command words, exactly those that decode to an instruction of its mnemonic. -/

namespace Sys2Proof

/-! ## The masks of the rows -/

/-- A row of command words that fixes `op`, and to `v` the bits of the argument that `m` keeps. -/
def fieldRow (name : String) (op : Byte) (m v : BitVec 64) : Row :=
  ⟨name, 80, (commandWord 0xFF#8 0#8 m).toNat, (commandWord op 0#8 v).toNat⟩

/-- The words of such a row. -/
theorem fieldRow_matches_iff (name : String) {op op' cid : Byte} {arg m v : BitVec 64} :
    (commandWord op cid arg).toNat &&& (fieldRow name op' m v).mask = (fieldRow name op' m v).value ↔
      op = op' ∧ arg &&& m = v := by
  simp only [fieldRow]
  rw [← BitVec.toNat_and, commandWord_and, BitVec.toNat_inj, commandWord, commandWord, append_inj_iff, append_inj_iff]
  simp

/-- The mask over `arg[9:8]` keeps the layout. -/
theorem and_layout_mask (arg : BitVec 64) : arg &&& 0x300#64 = unpkArg (bits arg 8 2) 0#8 := by
  have harg : arg = bits arg 10 54 ++ (bits arg 8 2 ++ bits arg 0 8) := by
    simp only [bits]
    repeat rw [BitVec.extractLsb'_append_extractLsb'_eq_extractLsb' (by rfl)]
    exact BitVec.extractLsb'_eq_self.symm
  have hmask : 0x300#64 = 0#54 ++ (BitVec.allOnes 2 ++ 0#8) := by decide
  calc arg &&& 0x300#64
      = (bits arg 10 54 ++ (bits arg 8 2 ++ bits arg 0 8)) &&& (0#54 ++ (BitVec.allOnes 2 ++ 0#8)) := by
        rw [← harg, ← hmask]
    _ = 0#54 ++ (bits arg 8 2 ++ 0#8) := by
        rw [BitVec.and_append, BitVec.and_append, BitVec.and_zero, BitVec.and_allOnes, BitVec.and_zero]
    _ = unpkArg (bits arg 8 2) 0#8 := by
        generalize bits arg 8 2 = layout
        revert layout
        decide

/-- The mask over `arg[7:0]` keeps the selector. -/
theorem and_selector_mask (arg : BitVec 64) : arg &&& 0xFF#64 = (bits arg 0 8).setWidth 64 := by
  apply BitVec.eq_of_toNat_eq
  have hmask : (arg &&& 0xFF#64).toNat = arg.toNat % 2 ^ 8 := Nat.and_two_pow_sub_one_eq_mod arg.toNat 8
  rw [hmask, BitVec.toNat_setWidth, bits_toNat]
  omega

/-! ## From a row to the instruction -/

/-- The words of a row decode to instructions of its mnemonic. -/
def RowDecodes (cw : BitVec 80) (r : Row) : Prop :=
  cw.toNat &&& r.mask = r.value → ∃ i, decode (.cmd80 cw) = .ok i ∧ i.mnemonic = r.mnemonic

section
variable {op cid : Byte} {arg : BitVec 64}

/-- A row that fixes `op` alone. -/
theorem rowDecodes_byOp (op' : Byte) {i : Instr} (hdec : decode (.cmd80 (commandWord op' cid arg)) = .ok i) :
    RowDecodes (commandWord op cid arg) (fieldRow i.mnemonic op' 0#64 0#64) := by
  intro h
  obtain ⟨rfl, -⟩ := (fieldRow_matches_iff _).mp h
  exact ⟨i, hdec, rfl⟩

/-- A row that fixes `op` and `arg[9:8]`. -/
theorem rowDecodes_byLayout (layout : BitVec 2) {i : Instr}
    (hdec : decodeUnpk cid (unpkArg layout (bits arg 0 8)) = .ok i) :
    RowDecodes (commandWord op cid arg)
      (fieldRow i.mnemonic opUnpk 0x300#64 (unpkArg layout 0#8)) := by
  intro h
  obtain ⟨rfl, harg⟩ := (fieldRow_matches_iff _).mp h
  have hlayout : bits arg 8 2 = layout := by
    rw [← (bits_unpkArg layout 0#8).1, ← harg, and_layout_mask, (bits_unpkArg _ _).1]
  exact ⟨i, (decode_unpk cid arg).trans ((decodeUnpk_eq hlayout).trans hdec), rfl⟩

/-- A row that fixes `op` and `arg[7:0]`. -/
theorem rowDecodes_bySelector (sel : BitVec 64) {i : Instr} (hdec : decodeRdstat cid sel = .ok i) :
    RowDecodes (commandWord op cid arg) (fieldRow i.mnemonic opRdstat 0xFF#64 sel) := by
  intro h
  obtain ⟨rfl, harg⟩ := (fieldRow_matches_iff _).mp h
  have hsel : bits arg 0 8 = bits sel 0 8 := by
    rw [← harg, and_selector_mask, bits_setWidth _ (by decide)]
  exact ⟨i, (decode_rdstat cid arg).trans ((decodeRdstat_eq hsel).trans hdec), rfl⟩

end

/-- Every 80-bit row of the table decodes as its mnemonic says. -/
theorem rowDecodes_of_mem (cw : BitVec 80) : ∀ r ∈ opcodeTable, r.nbits = 80 → RowDecodes cw r := by
  rw [← commandWord_bits cw]
  simp only [opcodeTable, List.forall_mem_cons]
  exact ⟨fun _ => rowDecodes_byOp opNop (decode_nop ..), fun _ => rowDecodes_byOp opOpen (decode_open ..),
    fun _ => rowDecodes_byOp opFeed (decode_feed ..), fun _ => rowDecodes_byOp opClose (decode_close ..),
    fun _ => rowDecodes_byOp opDecode (decode_decode ..), fun _ => rowDecodes_byOp opBcd6 (decode_bcd6 ..),
    fun _ => rowDecodes_byLayout 0#2 (decodeUnpk_rtp0 ..), fun _ => rowDecodes_byLayout 1#2 (decodeUnpk_rtp1 ..),
    fun _ => rowDecodes_byLayout 2#2 (decodeUnpk_dt ..), fun _ => rowDecodes_bySelector 0x00#64 rfl,
    fun _ => rowDecodes_bySelector 0x01#64 rfl, fun _ => rowDecodes_bySelector 0x02#64 rfl,
    fun _ => rowDecodes_bySelector 0x03#64 rfl, fun _ => rowDecodes_bySelector 0x04#64 rfl,
    fun _ => rowDecodes_bySelector 0x10#64 rfl, fun _ => rowDecodes_bySelector 0x11#64 rfl,
    fun _ => rowDecodes_bySelector 0x12#64 rfl, fun _ => rowDecodes_bySelector 0x13#64 rfl,
    fun _ => rowDecodes_bySelector 0x14#64 rfl, fun _ => rowDecodes_bySelector 0x15#64 rfl,
    fun _ => rowDecodes_bySelector 0x16#64 rfl, fun _ => rowDecodes_bySelector 0x17#64 rfl,
    fun h => absurd h (by decide), fun _ h => absurd h List.not_mem_nil⟩

/-! ## From the instruction to its row -/

theorem row_of_decodeUnpk {cid : Byte} {arg : BitVec 64} {i : Instr} (h : decodeUnpk cid arg = .ok i) :
    fieldRow i.mnemonic opUnpk 0x300#64 (arg &&& 0x300#64) ∈ opcodeTable := by
  have hofNat : bits arg 8 2 = BitVec.ofNat 2 (bits arg 8 2).toNat := by simp
  rw [and_layout_mask, hofNat]
  unfold decodeUnpk at h
  split at h
  case h_4 => cases h
  all_goals
    rename_i hlayout
    cases h
    rw [hlayout]
    simp only [Instr.mnemonic]
    decide

theorem row_of_decodeRdstat {cid : Byte} {arg : BitVec 64} {i : Instr} (h : decodeRdstat cid arg = .ok i) :
    fieldRow i.mnemonic opRdstat 0xFF#64 (arg &&& 0xFF#64) ∈ opcodeTable := by
  rw [and_selector_mask, ← BitVec.ofNat_toNat]
  unfold decodeRdstat at h
  split at h
  case h_14 => cases h
  all_goals
    rename_i hsel
    cases h
    rw [hsel]
    simp only [Instr.mnemonic]
    decide

/-- A word that decodes has the fixed bits of its instruction's row, `m` the mask of that row over the argument. -/
theorem row_of_decode {op cid : Byte} {arg : BitVec 64} {i : Instr}
    (h : decode (.cmd80 (commandWord op cid arg)) = .ok i) :
    ∃ m : BitVec 64, fieldRow i.mnemonic op m (arg &&& m) ∈ opcodeTable := by
  simp only [decode, decodeCommand, bits_commandWord_op, bits_commandWord_cid, bits_commandWord_arg] at h
  split at h
  case h_7 hop =>
    obtain rfl : op = opUnpk := BitVec.eq_of_toNat_eq hop
    exact ⟨_, row_of_decodeUnpk h⟩
  case h_8 hop =>
    obtain rfl : op = opRdstat := BitVec.eq_of_toNat_eq hop
    exact ⟨_, row_of_decodeRdstat h⟩
  case h_9 => cases h
  all_goals
    rename_i hop
    have hofNat : op = BitVec.ofNat 8 op.toNat := by simp
    cases h
    refine ⟨0#64, ?_⟩
    rw [BitVec.and_zero, hofNat, hop]
    simp only [Instr.mnemonic]
    decide

theorem row_eq_of_mnemonic : ∀ r ∈ opcodeTable, ∀ r' ∈ opcodeTable, r.mnemonic = r'.mnemonic → r = r' := by
  decide

/-- Every word that decodes has the fixed bits of its instruction's row. -/
theorem exists_row_of_decode {cw : BitVec 80} {i : Instr} (h : decode (.cmd80 cw) = .ok i) :
    ∃ r ∈ opcodeTable, r.nbits = 80 ∧ r.mnemonic = i.mnemonic ∧ cw.toNat &&& r.mask = r.value := by
  rw [← commandWord_bits cw] at h ⊢
  obtain ⟨m, hrow⟩ := row_of_decode h
  exact ⟨_, hrow, rfl, rfl, (fieldRow_matches_iff _).mpr ⟨rfl, rfl⟩⟩

/-- Settles O2: a row's words decode as it says (`rowDecodes_of_mem`), a word that decodes has the bits of its row
(`exists_row_of_decode`), and no two rows have one mnemonic. -/
theorem tableRowsSelectTheirWords : Obligations.TableRowsSelectTheirWords := by
  intro cw
  refine ⟨fun r hr hbits => ⟨fun ⟨i, hdec, hname⟩ => ?_, fun hmatch => ?_⟩, fun hnone => ?_⟩
  · obtain ⟨r', hr', -, hname', hmatch⟩ := exists_row_of_decode hdec
    obtain rfl := row_eq_of_mnemonic r' hr' r hr (hname'.trans hname)
    exact hmatch
  · exact rowDecodes_of_mem cw r hr hbits hmatch
  · cases hdec : decode (.cmd80 cw) with
    | error e => exact ⟨e, rfl⟩
    | ok i =>
      obtain ⟨r, hr, hbits, -, hmatch⟩ := exists_row_of_decode hdec
      exact absurd hmatch (hnone r hr hbits)

end Sys2Proof

/-! PROOFS. The wire bytes of a frame (30_encoding.md R90 to R94, R101; 42_decode.md R150 to R154): a sequence is its
big-endian windows one after the other, `mkframe` is such a list of windows, and the Frame Decoder reads them back. -/

namespace Sys2Proof.Machine

/-! ## Windows of a byte sequence -/

theorem pow_256 (n : Nat) : 256 ^ n = 2 ^ (8 * n) := by
  rw [pow_mul]
  norm_num

/-- Sequences of one length are determined by their big-endian number. -/
theorem beNat_inj {s t : Bytes} (hlen : s.length = t.length) (h : beNat s = beNat t) : s = t := by
  induction s generalizing t with
  | nil => exact (List.length_eq_zero_iff.mp hlen.symm).symm
  | cons a s ih =>
    cases t with
    | nil => cases hlen
    | cons b t =>
      have htail : s.length = t.length := Nat.succ_injective hlen
      rw [beNat_cons, beNat_cons, htail] at h
      have hs := htail ▸ beNat_lt s
      have ht := beNat_lt t
      have hdigit : a.toNat = b.toNat := by
        have := congrArg (· / 256 ^ t.length) h
        simpa [Nat.add_div_of_dvd_right, Nat.div_eq_of_lt hs, Nat.div_eq_of_lt ht, Nat.mul_div_cancel] using this
      rw [hdigit] at h
      rw [BitVec.eq_of_toNat_eq hdigit, ih htail (Nat.add_left_cancel h)]

/-- A window of `n` bytes, written big-endian, is the window. -/
theorem bigEndian_be (s : Bytes) (off n : Nat) (h : off + n ≤ s.length) :
    bigEndian n (be s off n) = (s.drop off).take n := by
  have hlen : ((s.drop off).take n).length = n := by simp; omega
  apply beNat_inj (by rw [bigEndian_length, hlen])
  have hlt := beNat_lt ((s.drop off).take n)
  rw [hlen] at hlt
  rw [beNat_bigEndian, be, BitVec.toNat_ofNat, ← pow_256, Nat.mod_mod, Nat.mod_eq_of_lt hlt]

/-- Cutting one window off the front of what is left of a sequence. -/
theorem drop_eq_window_append (s : Bytes) (off n : Nat) (h : off + n ≤ s.length) :
    s.drop off = bigEndian n (be s off n) ++ s.drop (off + n) := by
  rw [bigEndian_be s off n h, ← List.drop_drop, List.take_append_drop]

/-- The first window of a sequence that begins with a number written big-endian is that number. -/
theorem be_bigEndian_append {n : Nat} (v : BitVec (8 * n)) (t : Bytes) : be (bigEndian n v ++ t) 0 n = v := by
  have := be_middle [] (bigEndian n v) t 0 n rfl (bigEndian_length n v)
  rw [List.nil_append] at this
  rw [this, beNat_bigEndian, pow_256, Nat.mod_eq_of_lt v.isLt, BitVec.ofNat_toNat, BitVec.setWidth_eq]

/-- Dropping past the first part of a concatenation. -/
theorem drop_append_right {s t : Bytes} {k : Nat} (h : s.length ≤ k) : (s ++ t).drop k = t.drop (k - s.length) := by
  rw [List.drop_append, List.drop_eq_nil_of_le h, List.nil_append]

/-- A window behind the first part of a concatenation. -/
theorem be_append_right (s t : Bytes) (off n : Nat) (h : s.length ≤ off) :
    be (s ++ t) off n = be t (off - s.length) n := by
  unfold be
  rw [drop_append_right h]

/-! ## The windows of a built frame -/

theorem headerFields_magic_field (f : Bytes) : (headerFields f).magic = be f 0 4 := rfl

theorem bigEndian_one (b : Byte) : bigEndian 1 b = [b] := by simp [bigEndian, bits]

section
variable (f4 f5 : Byte) (seq : BitVec 16) (rsv : BitVec 32) (id : BitVec 48) (ch b19 : Byte) (ts : BitVec 64)
  (li lf : BitVec 16) (p : Bytes)

/-- `mkframe` as its windows in order. -/
theorem mkframe_eq : mkframe f4 f5 seq rsv id ch b19 ts li lf p =
    bigEndian 4 Config.magic ++ (bigEndian 1 f4 ++ (bigEndian 1 f5 ++ (bigEndian 2 seq ++ (bigEndian 4 rsv ++
    (bigEndian 6 id ++ (bigEndian 1 ch ++ (bigEndian 1 b19 ++ (bigEndian 8 ts ++ (bigEndian 2 li ++ (bigEndian 2 lf ++
    (bigEndian 2 (BitVec.ofNat 16 p.length) ++ p))))))))))) := by
  simp only [mkframe, bigEndian_one, List.append_assoc]

theorem mkframe_length : (mkframe f4 f5 seq rsv id ch b19 ts li lf p).length = 34 + p.length := by
  simp only [mkframe_eq, List.length_append, bigEndian_length]
  omega

theorem mkframe_drop : (mkframe f4 f5 seq rsv id ch b19 ts li lf p).drop 34 = p := by
  simp [mkframe_eq, drop_append_right]

/-- Every field of the header is read back from its window (42_decode.md R153). -/
theorem headerFields_mkframe : headerFields (mkframe f4 f5 seq rsv id ch b19 ts li lf p) =
    { magic := Config.magic
      rtpVersion := (unpkRtp0 f4).rtpVersion
      rtpPadding := (unpkRtp0 f4).rtpPadding
      rtpExtension := (unpkRtp0 f4).rtpExtension
      csrcCount := (unpkRtp0 f4).csrcCount
      marker := (unpkRtp1 f5).marker
      payloadType := (unpkRtp1 f5).payloadType
      sequence := seq
      deviceId := carryDigits (bcd6 id)
      channel := ch
      dataType := (unpkDt b19).dataType
      subpackage := (unpkDt b19).subpackage
      timestampMs := ts
      lastIFrameIntervalMs := li
      lastFrameIntervalMs := lf
      declaredPayloadLength := BitVec.ofNat 16 p.length } := by
  simp [headerFields, mkframe_eq, be_append_right, be_bigEndian_append]

theorem wellFormedFrame_mkframe (hp : p.length ≤ 65535) :
    wellFormedFrame (mkframe f4 f5 seq rsv id ch b19 ts li lf p) := by
  have hlt : p.length < 2 ^ 16 := by omega
  refine ⟨?_, ?_, ?_⟩
  · rw [mkframe_length]
    omega
  · rw [← headerFields_magic_field, headerFields_mkframe]
  · rw [← headerFields_length_field, headerFields_mkframe, mkframe_length, BitVec.toNat_ofNat, Nat.mod_eq_of_lt hlt]

end

/-- A sequence of at least 34 bytes is the windows of a header and the rest. -/
theorem eq_header_windows {f : Bytes} (h : 34 ≤ f.length) : f =
    bigEndian 4 (be f 0 4) ++ (bigEndian 1 (be f 4 1) ++ (bigEndian 1 (be f 5 1) ++ (bigEndian 2 (be f 6 2) ++
    (bigEndian 4 (be f 8 4) ++ (bigEndian 6 (be f 12 6) ++ (bigEndian 1 (be f 18 1) ++ (bigEndian 1 (be f 19 1) ++
    (bigEndian 8 (be f 20 8) ++ (bigEndian 2 (be f 28 2) ++ (bigEndian 2 (be f 30 2) ++
    (bigEndian 2 (be f 32 2) ++ f.drop 34))))))))))) := by
  rw [← drop_eq_window_append f 32 2 (by omega), ← drop_eq_window_append f 30 2 (by omega),
    ← drop_eq_window_append f 28 2 (by omega), ← drop_eq_window_append f 20 8 (by omega),
    ← drop_eq_window_append f 19 1 (by omega), ← drop_eq_window_append f 18 1 (by omega),
    ← drop_eq_window_append f 12 6 (by omega), ← drop_eq_window_append f 8 4 (by omega),
    ← drop_eq_window_append f 6 2 (by omega), ← drop_eq_window_append f 5 1 (by omega),
    ← drop_eq_window_append f 4 1 (by omega), ← drop_eq_window_append f 0 4 (by omega), List.drop_zero]

/-- Settles O6: a well-formed sequence is its windows, which are those of `mkframe` on the fields read from it, and
`wellFormedFrame_mkframe`. -/
theorem wellFormedIsMkframe : Obligations.WellFormedIsMkframe := by
  intro f
  constructor
  · rintro ⟨hlen, hmagic, hsize⟩
    have hpayload : (f.drop 34).length = (be f 32 2).toNat := by
      rw [List.length_drop]
      omega
    have hbound : (be f 32 2).toNat < 65536 := (be f 32 2).isLt
    refine ⟨be f 4 1, be f 5 1, be f 6 2, be f 8 4, be f 12 6, be f 18 1, be f 19 1, be f 20 8, be f 28 2, be f 30 2,
      f.drop 34, by omega, ?_⟩
    rw [mkframe_eq, hpayload, BitVec.ofNat_toNat, BitVec.setWidth_eq, ← hmagic]
    exact eq_header_windows hlen
  · rintro ⟨f4, f5, seq, rsv, id, ch, b19, ts, li, lf, p, hp, rfl⟩
    exact wellFormedFrame_mkframe f4 f5 seq rsv id ch b19 ts li lf p hp

/-! ## The packed bytes in plain arithmetic -/

theorem unpkRtp0_eq (b : Byte) : unpkRtp0 b =
    ⟨BitVec.ofNat 2 (b.toNat / 64), BitVec.ofNat 1 (b.toNat / 32 % 2), BitVec.ofNat 1 (b.toNat / 16 % 2),
      BitVec.ofNat 4 (b.toNat % 16)⟩ := by
  simp only [unpkRtp0, Rtp0.mk.injEq, ← BitVec.toNat_inj, bits_toNat, BitVec.toNat_ofNat]
  omega

theorem unpkRtp1_eq (b : Byte) : unpkRtp1 b = ⟨BitVec.ofNat 1 (b.toNat / 128), BitVec.ofNat 7 (b.toNat % 128)⟩ := by
  simp only [unpkRtp1, Rtp1.mk.injEq, ← BitVec.toNat_inj, bits_toNat, BitVec.toNat_ofNat]
  omega

theorem unpkDt_eq (b : Byte) : unpkDt b = ⟨BitVec.ofNat 4 (b.toNat % 16), BitVec.ofNat 2 (b.toNat / 16 % 4)⟩ := by
  simp only [unpkDt, Dt.mk.injEq, ← BitVec.toNat_inj, bits_toNat, BitVec.toNat_ofNat]
  omega

/-- Settles O7: a built frame is well-formed, so the decoder answers its header fields without a mismatch; each is read
from its window, and the packed bytes are split in plain arithmetic. -/
theorem decodeFrameReadsMkframe : Obligations.DecodeFrameReadsMkframe := by
  intro f4 f5 seq rsv id ch b19 ts li lf p hp
  rw [decodeFrame_wellFormed (wellFormedFrame_mkframe f4 f5 seq rsv id ch b19 ts li lf p hp), headerFields_mkframe,
    mkframe_drop, unpkRtp0_eq, unpkRtp1_eq, unpkDt_eq]
  rfl

end Sys2Proof.Machine

/-! PROOFS. Commands and their records (30_encoding.md R109, R114, R115): each shared operation, and so each command,
waits with nothing changed or appends records that end with its one response. -/

namespace Sys2Proof.Machine

/-! ## Waiting for the data bytes -/

theorem execFeed_wait {cid : Byte} {len : BitVec 32} {s : State} (h : s.din.length < len.toNat) :
    execFeed cid len s = .next s := by
  rw [execFeed, takeDin_wait _ h]

theorem execDecode_wait {cid : Byte} {len : BitVec 32} {s : State} (h : s.din.length < len.toNat) :
    execDecode cid len s = .next s := by
  rw [execDecode, takeDin_wait _ h]

/-- Settles O28: both commands take their data before anything else. -/
theorem commandsWaitForTheirBytes : Obligations.CommandsWaitForTheirBytes :=
  fun _ _ _ hshort => ⟨execFeed_wait hshort, execDecode_wait hshort⟩

/-! ## One response, the last record -/

/-- No record of the list is an `RSP`. -/
abbrev NoRsp (recs : List Record) : Prop := ∀ r ∈ recs, r.isRsp = false

theorem noRsp_nil : NoRsp [] := List.forall_mem_nil _

theorem noRsp_append {a b : List Record} (ha : NoRsp a) (hb : NoRsp b) : NoRsp (a ++ b) :=
  List.forall_mem_append.mpr ⟨ha, hb⟩

theorem noRsp_singleton {r : Record} (h : r.isRsp = false) : NoRsp [r] := List.forall_mem_singleton.mpr h

theorem noRsp_raiseCond {recs : List Record} (cid : Byte) (cond : Condition) (info : Nat) (h : NoRsp recs) :
    NoRsp (raiseCond cid cond info recs) := noRsp_append h (noRsp_singleton rfl)

/-- Counting frames emits `FRAME` records only. -/
theorem noRsp_countFrames {cid : Byte} {p : Pass} {fs : List Bytes} (h : NoRsp p.recs) :
    NoRsp (countFrames cid p fs).recs := by
  rw [countFrames_recs]
  exact noRsp_append h (List.forall_mem_map.mpr fun _ _ => rfl)

theorem noRsp_feedPass (cid : Byte) (chunk : Bytes) {c : Context} (g : GlobalStats) (hp : c.phase = .connected) :
    NoRsp (feedPass cid chunk c g).recs := by
  obtain ⟨fs, tail, -, -, ⟨-, hpass⟩ | ⟨-, hpass⟩⟩ := feedPass_cases cid chunk c g hp
  · rw [hpass]
    exact noRsp_countFrames noRsp_nil
  · rw [hpass]
    exact noRsp_append (noRsp_countFrames noRsp_nil) (noRsp_singleton rfl)

/-- The result takes the word at the head of `host` and appends to `out` records without an `RSP` and then one that
echoes `op` and `cid`. -/
def RespondsOnce (host : List HostEvent) (out : List Record) (op cid : Byte) (r : Result) : Prop :=
  ∃ t recs st v, r = .next t ∧ t.host = host.tail ∧ t.out = out ++ recs ++ [.rsp op cid st v] ∧ NoRsp recs

section
variable {s : State} {op cid : Byte}

theorem respond_respondsOnce {recs : List Record} (h : NoRsp recs) (st : Status) (v : BitVec 64) :
    RespondsOnce s.host s.out op cid (respond s recs op cid st v) :=
  ⟨_, recs, st, v, respond_eq .., rfl, (List.append_assoc ..).symm, h⟩

theorem reject_respondsOnce (st : Status) : RespondsOnce s.host s.out op cid (reject s op cid st) :=
  respond_respondsOnce noRsp_nil st 0#64

theorem withContext_respondsOnce {k : Context → Result} (hk : ∀ c, RespondsOnce s.host s.out op cid (k c)) :
    RespondsOnce s.host s.out op cid (withContext s op cid k) := by
  obtain ⟨-, hnone⟩ | ⟨c, -, hsome⟩ := withContext_cases s op cid k
  · exact hnone ▸ reject_respondsOnce _
  · exact hsome ▸ hk c

theorem withOpenContext_respondsOnce {k : Context → Result}
    (hk : ∀ c, c.phase = .connected → RespondsOnce s.host s.out op cid (k c)) :
    RespondsOnce s.host s.out op cid (withOpenContext s op cid k) := by
  obtain ⟨-, hnone⟩ | ⟨c, -, -, hother⟩ | ⟨c, -, hopen, hconn⟩ := withOpenContext_cases s op cid k
  · exact hnone ▸ reject_respondsOnce _
  · exact hother ▸ reject_respondsOnce _
  · exact hconn ▸ hk c hopen

theorem withRoom_respondsOnce {n : Nat} {k : Result} (hk : RespondsOnce s.host s.out op cid k) :
    RespondsOnce s.host s.out op cid (withRoom s op cid n k) := by
  obtain ⟨-, hfull⟩ | ⟨-, hfits⟩ := withRoom_cases s op cid n k
  · exact hfull ▸ reject_respondsOnce _
  · rw [hfits]
    exact hk

end

/-- The three outcomes of the Frame Decoder (42_decode.md R156). -/
theorem decodeBytes_respondsOnce (cid : Byte) (f : Bytes) (s : State) :
    RespondsOnce s.host s.out opDecode cid (decodeBytes cid f s) := by
  refine withRoom_respondsOnce ?_
  split
  · exact respond_respondsOnce (noRsp_raiseCond _ _ _ noRsp_nil) ..
  · exact respond_respondsOnce (noRsp_singleton rfl) ..
  · exact respond_respondsOnce (noRsp_append (noRsp_raiseCond _ _ _ noRsp_nil) (noRsp_singleton rfl)) ..

theorem execOpen_respondsOnce (cid : Byte) (addrKey : AddrKey) (s : State) :
    RespondsOnce s.host s.out opOpen cid (execOpen cid addrKey s) := by
  refine withContext_respondsOnce fun c => ?_
  split
  · exact respond_respondsOnce (s := writeContext s cid _) noRsp_nil ..
  · exact reject_respondsOnce _

theorem execClose_respondsOnce (cid : Byte) (reason : CloseReason) (s : State) :
    RespondsOnce s.host s.out opClose cid (execClose cid reason s) :=
  withOpenContext_respondsOnce fun _ _ =>
    respond_respondsOnce (s := writeContext s cid Context.reset) (noRsp_raiseCond _ _ _ noRsp_nil) ..

theorem readField_respondsOnce (cid : Byte) (val : Context → BitVec 64) (s : State) :
    RespondsOnce s.host s.out opRdstat cid (readField cid val s) :=
  withContext_respondsOnce fun _ => respond_respondsOnce noRsp_nil ..

/-- `FEED` waits for its bytes or responds once. -/
theorem execFeed_waits_or_responds (cid : Byte) (len : BitVec 32) (s : State) :
    (s.din.length < len.toNat ∧ execFeed cid len s = .next s) ∨
    RespondsOnce s.host s.out opFeed cid (execFeed cid len s) := by
  obtain hwait | ⟨chunk, rest, -, -, hready⟩ := takeDin_cases s len _
  · exact .inl hwait
  · refine .inr ?_
    rw [execFeed, hready]
    exact withOpenContext_respondsOnce (s := { s with din := rest }) fun c hopen =>
      withRoom_respondsOnce (respond_respondsOnce (noRsp_feedPass cid chunk s.g hopen) ..)

/-- `DECODE` waits for its bytes or responds once. -/
theorem execDecode_waits_or_responds (cid : Byte) (len : BitVec 32) (s : State) :
    (s.din.length < len.toNat ∧ execDecode cid len s = .next s) ∨
    RespondsOnce s.host s.out opDecode cid (execDecode cid len s) := by
  obtain hwait | ⟨f, rest, -, -, hready⟩ := takeDin_cases s len _
  · exact .inl hwait
  · refine .inr ?_
    rw [execDecode, hready]
    exact decodeBytes_respondsOnce cid f { s with din := rest }

/-- Every instruction waits for its bytes, if it is a `FEED` or `DECODE`, or responds once. -/
theorem exec_waits_or_responds (i : Instr) (s : State) :
    (exec i s = .next s ∧ ∃ cid len, (i = .feed cid len ∨ i = .decode cid len) ∧ s.din.length < len.toNat) ∨
    RespondsOnce s.host s.out (echoOp i) (echoCid i) (exec i s) := by
  cases i with
  | feed cid len =>
    exact (execFeed_waits_or_responds cid len s).imp_left
      fun ⟨hshort, hwait⟩ => ⟨hwait, cid, len, .inl rfl, hshort⟩
  | decode cid len =>
    exact (execDecode_waits_or_responds cid len s).imp_left
      fun ⟨hshort, hwait⟩ => ⟨hwait, cid, len, .inr rfl, hshort⟩
  | openConn cid addrKey => exact .inr (execOpen_respondsOnce cid addrKey s)
  | closeConn cid reason => exact .inr (execClose_respondsOnce cid reason s)
  | bcd6 cid bytes => exact .inr (respond_respondsOnce (noRsp_singleton rfl) ..)
  | nop | unpkRtp0 | unpkRtp1 | unpkDt => exact .inr (respond_respondsOnce noRsp_nil ..)
  | rdstatStartTime | rdstatTotalPkts | rdstatTotalBytes | rdstatIframeCnt | rdstatPframeCnt =>
    exact .inr (respond_respondsOnce noRsp_nil ..)
  | rdstatConnStatus | rdstatBufLen | rdstatPktCnt | rdstatByteCnt | rdstatDevId | rdstatChannel
  | rdstatAddrKey | rdstatConnTs => exact .inr (readField_respondsOnce ..)
  | frameHdr hdr => exact .inr (decodeBytes_respondsOnce _ _ s)

/-- Settles O51, from `exec_waits_or_responds`. -/
theorem everyCommandEndsWithOneResponse : Obligations.EveryCommandEndsWithOneResponse := by
  intro i s t hexec
  obtain ⟨hwait, hdata⟩ | ⟨u, recs, st, v, hnext, hhost, hout, hrecs⟩ := exec_waits_or_responds i s
  · cases hexec.symm.trans hwait
    exact .inl ⟨rfl, hdata⟩
  · cases hexec.symm.trans hnext
    exact .inr ⟨hhost, recs, st, v, hout, hrecs⟩

/-! ## The assembler's chunks -/

/-- Chunks cut at sizes that add up to the bytes, one `FEED` each (30_encoding.md R119). -/
theorem feedChunks_cut (cid : Byte) (bytes : Bytes) (sizes : List Nat) (hsum : sizes.sum = bytes.length) :
    feedChunks cid (cut bytes sizes) =
      ⟨sizes.map fun k => .word (encode (.feed cid (BitVec.ofNat 32 k))), bytes⟩ := by
  induction sizes generalizing bytes with
  | nil =>
    obtain rfl := List.length_eq_zero_iff.mp hsum.symm
    rfl
  | cons k ks ih =>
    rw [List.sum_cons] at hsum
    have htake : (bytes.take k).length = k := List.length_take_of_le (by omega)
    have hrest := ih (bytes.drop k) (by rw [List.length_drop]; omega)
    simp only [cut, feedChunks, feedInputs, command, joinInputs, htake, hrest, List.take_append_drop,
      List.singleton_append, List.map_cons]

/-- Settles O54, by induction on the sizes. -/
theorem feedsLineCarriesTheBytes : Obligations.FeedsLineCarriesTheBytes := by
  intro cid bytes sizes hsum
  have hline : assembleLine (.feeds cid bytes sizes) = _ := feedChunks_cut cid bytes sizes hsum
  rw [hline]
  exact ⟨rfl, rfl⟩

end Sys2Proof.Machine

/-! PROOFS. The BCD decoder (40_bcd.md R130 to R133): the digits of one nibble, the digit string of six bytes, and the
`BCD6` command. -/

namespace Sys2Proof.Machine

/-! ## The digits of one nibble -/

theorem asciiDigit_toNat {k : Nat} (h : k ≤ 9) : (asciiDigit k).toNat = 0x30 + k := by
  rw [asciiDigit, BitVec.toNat_ofNat]
  omega

/-- The library's digit characters have the ASCII codes of R131. -/
theorem ofNat_digitChar : ∀ k < 10, BitVec.ofNat 8 (Nat.digitChar k).toNat = asciiDigit k := by decide

theorem dig_of_le {n : BitVec 4} (h : n.toNat ≤ 9) : dig n = [asciiDigit n.toNat] := if_pos h

theorem dig_of_gt {n : BitVec 4} (h : 9 < n.toNat) : dig n = [asciiDigit 1, asciiDigit (n.toNat - 10)] :=
  if_neg (Nat.not_le_of_gt h)

/-- The decimal numeral of a number, in ASCII. -/
def asciiNumeral (k : Nat) : Bytes := (Nat.toDigits 10 k).map fun ch => BitVec.ofNat 8 ch.toNat

/-- R131: what `dig` emits is the nibble's decimal numeral. From 10 on the numeral is that of the quotient by 10, which
is 1, followed by the remainder. -/
theorem dig_eq_asciiNumeral (n : BitVec 4) : dig n = asciiNumeral n.toNat := by
  have hn := n.isLt
  obtain h | h := le_or_gt n.toNat 9
  · rw [dig_of_le h, asciiNumeral, Nat.toDigits_of_lt_base (by omega), List.map_singleton,
      ofNat_digitChar _ (by omega)]
  · have hquot : n.toNat / 10 = 1 := by omega
    have hrem : n.toNat % 10 = n.toNat - 10 := by omega
    rw [dig_of_gt h, asciiNumeral, Nat.toDigits_of_base_le (by decide) h, hquot, hrem,
      Nat.toDigits_of_lt_base (by decide), List.map_append, List.map_singleton, List.map_singleton,
      ofNat_digitChar 1 (by decide), ofNat_digitChar _ (by omega), List.singleton_append]

theorem length_dig (n : BitVec 4) : (dig n).length = if 9 < n.toNat then 2 else 1 := by
  split
  next h => rw [dig_of_gt h]; rfl
  next h => rw [dig_of_le (Nat.le_of_not_lt h)]; rfl

theorem mem_dig_range {n : BitVec 4} {ch : Byte} (h : ch ∈ dig n) : 0x30 ≤ ch.toNat ∧ ch.toNat ≤ 0x39 := by
  have hdigit : ∃ k ≤ 9, ch = asciiDigit k := by
    have hn := n.isLt
    obtain hle | hgt := le_or_gt n.toNat 9
    · rw [dig_of_le hle, List.mem_singleton] at h
      exact ⟨n.toNat, hle, h⟩
    · rw [dig_of_gt hgt, List.mem_pair] at h
      obtain rfl | rfl := h
      · exact ⟨1, by decide, rfl⟩
      · exact ⟨n.toNat - 10, by omega, rfl⟩
  obtain ⟨k, hk, rfl⟩ := hdigit
  rw [asciiDigit_toNat hk]
  omega

/-! ## The digit string of six bytes -/

/-- The nibbles from the highest, in plain arithmetic. -/
theorem nibble_toNat (bytes : BitVec 48) {k : Nat} (hk : k < 12) :
    (bits bytes (44 - 4 * k) 4).toNat = bytes.toNat / 16 ^ (11 - k) % 16 := by
  have hpos : 44 - 4 * k = 4 * (11 - k) := by omega
  rw [bits_toNat, hpos, pow_mul]
  rfl

theorem bcd6_eq_flatMap_asciiNumeral (bytes : BitVec 48) :
    bcd6 bytes = (List.range 12).flatMap fun k => asciiNumeral (bytes.toNat / 16 ^ (11 - k) % 16) :=
  List.flatMap_congr fun k hk => by rw [dig_eq_asciiNumeral, nibble_toNat bytes (List.mem_range.mp hk)]

/-- The digits of a list of nibbles: one each, and one more for each nibble above 9. -/
theorem length_flatMap_dig (l : List Nat) (nibble : Nat → BitVec 4) :
    (l.flatMap fun k => dig (nibble k)).length = l.length + l.countP fun k => decide (9 < (nibble k).toNat) := by
  induction l with
  | nil => rfl
  | cons k l ih =>
    rw [List.flatMap_cons, List.length_append, ih, length_dig, List.length_cons, List.countP_cons]
    simp only [decide_eq_true_eq]
    split <;> omega

theorem length_bcd6 (bytes : BitVec 48) :
    (bcd6 bytes).length = 12 + (List.range 12).countP fun k => decide (9 < bytes.toNat / 16 ^ (11 - k) % 16) := by
  rw [bcd6, length_flatMap_dig, List.length_range]
  congr 1
  exact List.countP_congr fun k hk => by rw [nibble_toNat bytes (List.mem_range.mp hk)]

/-- Settles O19: the alphabet is that of each nibble's digits, and the count of `length_bcd6` is at most the number of
nibbles. -/
theorem digitStringShape : Obligations.DigitStringShape := by
  intro bytes
  have hcount := List.countP_le_length (l := List.range 12)
    (p := fun k => decide (9 < bytes.toNat / 16 ^ (11 - k) % 16))
  rw [List.length_range] at hcount
  refine ⟨fun ch hch => ?_, length_bcd6 bytes, ?_, ?_⟩
  · obtain ⟨k, -, hk⟩ := List.mem_flatMap.mp hch
    exact mem_dig_range hk
  · rw [length_bcd6]
    omega
  · rw [length_bcd6]
    omega

/-! ## The command -/

/-- `BCD6` appends its string's record and the response with the string's length (R133). -/
theorem exec_bcd6 (cid : Byte) (bytes : BitVec 48) (s : State) :
    exec (.bcd6 cid bytes) s = .next { s with
      host := s.host.tail
      out := s.out ++ [.bcd (carryDigits (bcd6 bytes)),
        .rsp opBcd6 cid .ok (BitVec.ofNat 64 (bcd6 bytes).length)] } :=
  respond_eq ..

/-- Settles O18: the command's equation, and the digit string as the numerals of the nibbles. -/
theorem bcd6EmitsDecimalNumerals : Obligations.Bcd6EmitsDecimalNumerals := by
  intro cid bytes s str
  have hstr : bcd6 bytes = str := bcd6_eq_flatMap_asciiNumeral bytes
  rw [exec_bcd6, hstr]
  rfl

end Sys2Proof.Machine

/-! PROOFS. The command words written out in the spec, by the decoder's equations. -/

namespace Sys2Proof

/-- Settles O5: each word is the command word of its three fields, decoded by the equation of its operation code. -/
theorem sampleWordsDecode : Obligations.SampleWordsDecode := by
  refine ⟨decode_nop 0 0, decode_open 0 0xC0A80001D431, decode_feed 0 37, decode_close 0 1, decode_decode 0 37,
    decode_bcd6 0 0x138000000001, ?_, ?_, ?_, decode_rdstat 1 0x12⟩
  · exact (decode_unpk 0 (unpkArg 0 0x81)).trans (decodeUnpk_rtp0 0 0x81)
  · exact (decode_unpk 0 (unpkArg 1 0xE2)).trans (decodeUnpk_rtp1 0 0xE2)
  · exact (decode_unpk 0xAB 0xFFFFFFFFFFFFFE10).trans
      ((decodeUnpk_eq (layout := 2) rfl).trans (decodeUnpk_dt 0xAB 0x10))

end Sys2Proof

/-! PROOFS. The packed-bitfield unpacker's commands (41_unpack.md R141 to R144): the word of the reserved layout, the
result word with one field per byte, and the three `UNPK` commands. -/

namespace Sys2Proof

/-! ## The reserved layout -/

/-- A command word's operation code and `cid`, read off the word in plain arithmetic (30_encoding.md R105). -/
theorem eq_commandWord_of_op {cw : BitVec 80} {op : Byte} (h : cw.toNat / 2 ^ 72 = op.toNat) :
    cw = commandWord op (BitVec.ofNat 8 (cw.toNat / 2 ^ 64 % 256)) (bits cw 0 64) := by
  have hop : bits cw 72 8 = op :=
    BitVec.eq_of_toNat_eq (by rw [bits_toNat, h]; exact Nat.mod_eq_of_lt op.isLt)
  have hcid : bits cw 64 8 = BitVec.ofNat 8 (cw.toNat / 2 ^ 64 % 256) :=
    BitVec.eq_of_toNat_eq (by rw [bits_toNat, BitVec.toNat_ofNat]; omega)
  rw [← hop, ← hcid, commandWord_bits]

/-- Layout 3 selects no `UNPK` (R144). -/
theorem decodeUnpk_reserved (cid : Byte) {arg : BitVec 64} (h : bits arg 8 2 = 3#2) :
    decodeUnpk cid arg = .error (.badOperand opUnpk cid) := by
  simp [decodeUnpk, h]

/-- The words that R144 reserves are no instruction. -/
theorem decode_reservedLayout {cw : BitVec 80} (hop : cw.toNat / 2 ^ 72 = 0x06) (hlayout : cw.toNat / 256 % 4 = 3) :
    decode (.cmd80 cw) = .error (.badOperand opUnpk (BitVec.ofNat 8 (cw.toNat / 2 ^ 64 % 256))) := by
  have hbits : bits (bits cw 0 64) 8 2 = 3#2 := bits_layout_eq (by
    rw [bits_toNat, BitVec.toNat_ofNat]
    omega)
  rw [congrArg InputWord.cmd80 (eq_commandWord_of_op (op := opUnpk) hop), decode_unpk, decodeUnpk_reserved _ hbits]

end Sys2Proof

namespace Sys2Proof.Machine

/-- Settles O12: the word does not decode, so the step is the rejection `BadOperand`. -/
theorem unpkLayoutThreeRejected : Obligations.UnpkLayoutThreeRejected := by
  intro s rest cw hhost hop hlayout
  have hstep : step s = reject s opUnpk _ .badOperand := step_word_error hhost (decode_reservedLayout hop hlayout)
  rw [hstep, reject_eq, hhost]
  rfl

/-! ## The result word: each field in a byte of its own -/

/-- A field of at most 8 bits, zero-extended to a byte, in front of the bytes below it. -/
theorem toNat_byte_append {m n : Nat} (a : BitVec m) (b : BitVec n) (h : m ≤ 8) :
    (a.setWidth 8 ++ b).toNat = a.toNat * 2 ^ n + b.toNat := by
  rw [toNat_append_eq, BitVec.toNat_setWidth_of_le h]

theorem rtp0Val_toNat (f : Rtp0) : (rtp0Val f).toNat =
    f.rtpVersion.toNat + 2 ^ 8 * f.rtpPadding.toNat + 2 ^ 16 * f.rtpExtension.toNat + 2 ^ 24 * f.csrcCount.toNat := by
  rw [rtp0Val, BitVec.toNat_setWidth_of_le (by decide), toNat_byte_append _ _ (by decide),
    toNat_byte_append _ _ (by decide), toNat_byte_append _ _ (by decide), BitVec.toNat_setWidth_of_le (by decide)]
  ring

theorem rtp1Val_toNat (f : Rtp1) : (rtp1Val f).toNat = f.marker.toNat + 2 ^ 8 * f.payloadType.toNat := by
  rw [rtp1Val, BitVec.toNat_setWidth_of_le (by decide), toNat_byte_append _ _ (by decide),
    BitVec.toNat_setWidth_of_le (by decide)]
  ring

theorem dtVal_toNat (f : Dt) : (dtVal f).toNat = f.dataType.toNat + 2 ^ 8 * f.subpackage.toNat := by
  rw [dtVal, BitVec.toNat_setWidth_of_le (by decide), toNat_byte_append _ _ (by decide),
    BitVec.toNat_setWidth_of_le (by decide)]
  ring

/-! ## The result word of a byte, in plain arithmetic -/

/-- R141: `unpkRtp0_eq` splits the byte, `rtp0Val_toNat` places the fields, and each fits its byte. -/
theorem rtp0Val_unpkRtp0 (b : Byte) : rtp0Val (unpkRtp0 b) = BitVec.ofNat 64
    (b.toNat / 64 + 2 ^ 8 * (b.toNat / 32 % 2) + 2 ^ 16 * (b.toNat / 16 % 2) + 2 ^ 24 * (b.toNat % 16)) := by
  apply BitVec.eq_of_toNat_eq
  rw [rtp0Val_toNat, unpkRtp0_eq]
  simp (disch := omega) only [BitVec.toNat_ofNat, Nat.mod_eq_of_lt]

/-- R142: the fields of `unpkRtp1_eq`, placed by `rtp1Val_toNat`. -/
theorem rtp1Val_unpkRtp1 (b : Byte) :
    rtp1Val (unpkRtp1 b) = BitVec.ofNat 64 (b.toNat / 128 + 2 ^ 8 * (b.toNat % 128)) := by
  apply BitVec.eq_of_toNat_eq
  rw [rtp1Val_toNat, unpkRtp1_eq]
  simp (disch := omega) only [BitVec.toNat_ofNat, Nat.mod_eq_of_lt]

/-- R143: bits 7:6 of the byte reach neither field. -/
theorem dtVal_unpkDt (b : Byte) :
    dtVal (unpkDt b) = BitVec.ofNat 64 (b.toNat % 16 + 2 ^ 8 * (b.toNat / 16 % 4)) := by
  apply BitVec.eq_of_toNat_eq
  rw [dtVal_toNat, unpkDt_eq]
  simp (disch := omega) only [BitVec.toNat_ofNat, Nat.mod_eq_of_lt]

/-! ## The commands -/

theorem exec_unpkRtp0 (cid byte : Byte) (s : State) :
    exec (.unpkRtp0 cid byte) s = .next { s with
      host := s.host.tail
      out := s.out ++ [.rsp opUnpk cid .ok (rtp0Val (unpkRtp0 byte))] } :=
  respond_eq ..

theorem exec_unpkRtp1 (cid byte : Byte) (s : State) :
    exec (.unpkRtp1 cid byte) s = .next { s with
      host := s.host.tail
      out := s.out ++ [.rsp opUnpk cid .ok (rtp1Val (unpkRtp1 byte))] } :=
  respond_eq ..

theorem exec_unpkDt (cid byte : Byte) (s : State) :
    exec (.unpkDt cid byte) s = .next { s with
      host := s.host.tail
      out := s.out ++ [.rsp opUnpk cid .ok (dtVal (unpkDt byte))] } :=
  respond_eq ..

/-- Settles O20: the command's equation, and its result word in plain arithmetic. -/
theorem unpkRtp0SplitsByte : Obligations.UnpkRtp0SplitsByte := by
  intro cid byte s
  rw [exec_unpkRtp0, rtp0Val_unpkRtp0]
  rfl

/-- Settles O21: the command's equation, and its result word in plain arithmetic. -/
theorem unpkRtp1SplitsByte : Obligations.UnpkRtp1SplitsByte := by
  intro cid byte s
  rw [exec_unpkRtp1, rtp1Val_unpkRtp1]
  rfl

/-- Settles O22: the command's equation, and its result word in plain arithmetic. -/
theorem unpkDtSplitsByte : Obligations.UnpkDtSplitsByte := by
  intro cid byte s
  rw [exec_unpkDt, dtVal_unpkDt]
  rfl

end Sys2Proof.Machine

/-! PROOFS. The Frame Decoder and `DECODE` (42_decode.md R150 to R156): one equation per outcome of the decoder on taken
bytes, the words and windows of a bare header (30_encoding.md R90, R98), and the commands' exact next states. -/

namespace Sys2Proof

/-! ## Fields of a word, through its bytes -/

/-- A field of a field is a field of the word. -/
theorem bits_bits {n : Nat} (v : BitVec n) {lo len lo' len' : Nat} (h : lo' + len' ≤ len) :
    bits (bits v lo len) lo' len' = bits v (lo + lo') len' := by
  apply BitVec.eq_of_getLsbD_eq
  intro i hi
  simp [bits, hi, show lo' + i < len by omega, Nat.add_assoc]

end Sys2Proof

namespace Sys2Proof.Machine

/-- A window of a sequence, in plain arithmetic on the sequence's number. -/
theorem be_toNat {s : Bytes} {off n : Nat} (h : off + n ≤ s.length) :
    (be s off n).toNat = beNat s / 256 ^ (s.length - (off + n)) % 256 ^ n := by
  have hwindow := beNat_lt ((s.drop off).take n)
  have htail := beNat_lt (s.drop (off + n))
  have hnum : beNat s = (beNat (s.take off) * 256 ^ n + beNat ((s.drop off).take n)) * 256 ^ (s.length - (off + n))
      + beNat (s.drop (off + n)) := by
    conv_lhs => rw [← List.take_append_drop (off + n) s, List.take_add]
    rw [beNat_append, beNat_append, List.length_drop, List.length_take, List.length_drop, Nat.min_eq_left (by omega)]
  rw [List.length_drop] at htail
  rw [List.length_take, List.length_drop, Nat.min_eq_left (by omega)] at hwindow
  rw [hnum, Nat.mul_comm _ (256 ^ (s.length - (off + n))), Nat.mul_add_div (by positivity), Nat.div_eq_of_lt htail,
    Nat.add_zero, Nat.mul_add_mod_self_right, Nat.mod_eq_of_lt hwindow, be, BitVec.toNat_ofNat, ← pow_256,
    Nat.mod_eq_of_lt hwindow]

/-- A window of a word's bytes is a field of the word: the field that ends as many bytes above bit 0 as there are bytes
behind the window (30_encoding.md R90, R91). -/
theorem be_bigEndian {m k off n : Nat} (v : BitVec m) (h : off + n ≤ k) :
    be (bigEndian k v) off n = bits v (8 * (k - (off + n))) (8 * n) := by
  obtain ⟨j, rfl⟩ := Nat.exists_eq_add_of_le h
  apply BitVec.eq_of_toNat_eq
  have hsplit : (256 : Nat) ^ (off + n + j) = 256 ^ j * (256 ^ n * 256 ^ off) := by ring
  rw [be_toNat (by rw [bigEndian_length]; exact h), bigEndian_length, beNat_bigEndian, bits_toNat,
    Nat.add_sub_cancel_left, hsplit, Nat.mod_mul_right_div_self, Nat.mod_mul_right_mod, pow_256, pow_256]

/-! ## The windows of a bare header -/

/-- The fields that a `FRAME` record carries of a header: all but the undecoded bits, the device identifier as its digit
string (30_encoding.md R96, R110; 42_decode.md R153). -/
def decodedFields (h : FrameHeader) : FrameFields where
  magic := h.magic
  rtpVersion := h.rtpVersion
  rtpPadding := h.rtpPadding
  rtpExtension := h.rtpExtension
  csrcCount := h.csrcCount
  marker := h.marker
  payloadType := h.payloadType
  sequence := h.sequence
  deviceId := carryDigits (bcd6 h.deviceIdRaw)
  channel := h.channel
  dataType := h.dataType
  subpackage := h.subpackage
  timestampMs := h.timestampMs
  lastIFrameIntervalMs := h.lastIFrameIntervalMs
  lastFrameIntervalMs := h.lastFrameIntervalMs
  declaredPayloadLength := h.declaredPayloadLength

/-- The Frame Decoder and the word decoder read the same fields from the same 34 bytes. -/
theorem headerFields_bigEndian (w : BitVec 272) :
    headerFields (bigEndian 34 w) = decodedFields (headerOfWord w) := by
  simp [headerFields, decodedFields, headerOfWord, unpkRtp0, unpkRtp1, unpkDt, be_bigEndian, bits_bits]

theorem headerFields_headerBytes (h : FrameHeader) : headerFields (headerBytes h) = decodedFields h := by
  rw [headerBytes, headerFields_bigEndian, headerOfWord_headerWord]

theorem headerBytes_length (h : FrameHeader) : (headerBytes h).length = 34 := bigEndian_length 34 _

theorem be_headerBytes_magic (h : FrameHeader) : be (headerBytes h) 0 4 = h.magic :=
  congrArg FrameFields.magic (headerFields_headerBytes h)

theorem be_headerBytes_length_field (h : FrameHeader) : be (headerBytes h) 32 2 = h.declaredPayloadLength :=
  congrArg FrameFields.declaredPayloadLength (headerFields_headerBytes h)

/-! ## The Frame Decoder on taken bytes, outcome by outcome (R156) -/

section
variable (cid : Byte) (s : State) {f : Bytes}

theorem decodeBytes_overflow (hroom : s.bufCap.admits f.length = false) :
    decodeBytes cid f s = reject s opDecode cid .bufferOverflow := withRoom_full _ hroom

theorem decodeBytes_short (hroom : s.bufCap.admits f.length = true) (hlen : f.length < 34) :
    decodeBytes cid f s =
      respond s [.cond cid .bufferTooShort (condInfo f.length)] opDecode cid .bufferTooShort 0#64 := by
  rw [decodeBytes, withRoom_fits _ hroom, decodeFrame_short hlen]
  rfl

theorem decodeBytes_badMagic (hroom : s.bufCap.admits f.length = true) (hlen : 34 ≤ f.length)
    (hmagic : be f 0 4 ≠ Config.magic) :
    decodeBytes cid f s = respond s [.cond cid .badMagic (condInfo f.length)] opDecode cid .badMagic 0#64 := by
  rw [decodeBytes, withRoom_fits _ hroom, decodeFrame_badMagic hlen hmagic]
  rfl

theorem decodeBytes_frame (hroom : s.bufCap.admits f.length = true) (hlen : 34 ≤ f.length)
    (hmagic : be f 0 4 = Config.magic) (hsize : f.length - 34 = (be f 32 2).toNat) :
    decodeBytes cid f s =
      respond s [.frame cid (headerFields f) (BitVec.ofNat 32 f.length) f] opDecode cid .ok 1#64 := by
  rw [decodeBytes, withRoom_fits _ hroom, decodeFrame_ok hlen hmagic, bne_eq_false_iff_eq.mpr hsize]
  rfl

theorem decodeBytes_mismatch (hroom : s.bufCap.admits f.length = true) (hlen : 34 ≤ f.length)
    (hmagic : be f 0 4 = Config.magic) (hsize : f.length - 34 ≠ (be f 32 2).toNat) :
    decodeBytes cid f s =
      respond s [.cond cid .payloadLengthMismatch (condInfo (f.length - 34)),
        .frame cid (headerFields f) (BitVec.ofNat 32 f.length) f] opDecode cid .payloadLengthMismatch 1#64 := by
  rw [decodeBytes, withRoom_fits _ hroom, decodeFrame_ok hlen hmagic, bne_iff_ne.mpr hsize]
  rfl

end

/-! ## Taking the bytes, and reporting their number -/

/-- `DECODE` with its bytes at the head of data-in is the Frame Decoder on them. -/
theorem exec_decode_ready (cid : Byte) {len : BitVec 32} {s : State} {f rest : Bytes} (hdin : s.din = f ++ rest)
    (hlen : f.length = len.toNat) : exec (.decode cid len) s = decodeBytes cid f { s with din := rest } :=
  takeDin_ready (fun f s => decodeBytes cid f s) hdin hlen

theorem condInfo_toNat_eq (len : BitVec 32) : condInfo len.toNat = len :=
  BitVec.eq_of_toNat_eq (condInfo_toNat len.isLt)

/-- The number of bytes behind a header, as a difference of 32-bit words (42_decode.md R154). -/
theorem condInfo_payload_length {len : BitVec 32} (h : 34 ≤ len.toNat) : condInfo (len.toNat - 34) = len - 34#32 := by
  have := len.isLt
  apply BitVec.eq_of_toNat_eq
  rw [condInfo_toNat (by omega), BitVec.toNat_sub_of_le (by bv_omega)]
  rfl

/-! ## The statements -/

/-- Settles O8: the decoder's three equations; `mismatch` is the comparison in the last of them. -/
theorem decodeFrameChecksInOrder : Obligations.DecodeFrameChecksInOrder := by
  intro f
  exact ⟨decodeFrame_short, decodeFrame_badMagic, fun hlen hmagic => ⟨_, decodeFrame_ok hlen hmagic, bne_iff_ne⟩⟩

/-- Settles O30: the header's bytes are the 34 that `DECODE` takes, and taking them restores data-in. -/
theorem frameHeaderIsDecodeOfItsBytes : Obligations.FrameHeaderIsDecodeOfItsBytes := by
  intro h s
  exact (exec_decode_ready 0#8 (len := 34#32) (s := { s with din := headerBytes h ++ s.din }) rfl
    (headerBytes_length h)).symm

/-- Settles O14: the word does not decode, so the step is the `BadMagic` response with 34 as `info`. -/
theorem bareHeaderBadMagicAnswered : Obligations.BareHeaderBadMagicAnswered := by
  intro s rest w hhost hmagic
  have hstep : step s = rejectWord (.badMagic w) s :=
    step_word_error hhost (decode_badMagic (mt (bits_magic_eq_iff w).mp hmagic))
  rw [hstep, rejectWord, respond_eq, hhost]
  rfl

/-- Settles O27: the bytes are taken, and each case is the decoder's equation for it, with the lengths it reports
written as words. -/
theorem decodeCommandResult : Obligations.DecodeCommandResult := by
  intro cid len s f rest hdin hlen answer
  have hans (recs : List Record) (st : Status) (v : BitVec 64) :
      respond { s with din := rest } recs opDecode cid st v = answer recs st v := by
    rw [respond_eq, ← List.append_assoc]
    rfl
  have hword : condInfo f.length = len := by rw [hlen, condInfo_toNat_eq]
  have hraw : BitVec.ofNat 32 f.length = len := by rw [hlen, BitVec.ofNat_toNat, BitVec.setWidth_eq]
  rw [exec_decode_ready cid hdin hlen]
  refine ⟨fun hroom => ?_, fun hroom hshort => ?_, fun hroom hlong hmagic => ?_, fun hroom hlong hmagic hsize => ?_,
    fun hroom hlong hmagic hsize => ?_⟩
  · exact (decodeBytes_overflow cid { s with din := rest } hroom).trans (hans ..)
  · rw [decodeBytes_short cid { s with din := rest } hroom hshort, hans, hword]
  · rw [decodeBytes_badMagic cid { s with din := rest } hroom hlong hmagic, hans, hword]
  · rw [decodeBytes_frame cid { s with din := rest } hroom hlong hmagic hsize, hans, hraw]
  · have hinfo : condInfo (f.length - 34) = len - 34#32 := by rw [hlen, condInfo_payload_length (hlen ▸ hlong)]
    rw [decodeBytes_mismatch cid { s with din := rest } hroom hlong hmagic hsize, hans, hinfo, hraw]

/-- Settles O29: every allowed capacity holds the 34 bytes, their windows are the header's fields, and with no byte
behind them the length diagnostic is raised exactly when the declared length is not 0. -/
theorem frameHeaderDecodes : Obligations.FrameHeaderDecodes := by
  intro h s hwf hcap
  have hmagic : h.magic = Config.magic := by simpa [FrameHeader.wellFormed] using hwf
  have hlen := headerBytes_length h
  have hroom : s.bufCap.admits (headerBytes h).length = true := admits_of_valid hcap (by omega)
  have hwindow : be (headerBytes h) 0 4 = Config.magic := (be_headerBytes_magic h).trans hmagic
  have hfields : headerFields (headerBytes h) = { decodedFields h with magic := Config.magic } := by
    rw [headerFields_headerBytes, ← hmagic]
    rfl
  have hnone : (headerBytes h).length - 34 = (be (headerBytes h) 32 2).toNat ↔ h.declaredPayloadLength = 0#16 := by
    rw [hlen, be_headerBytes_length_field, ← BitVec.toNat_inj]
    exact eq_comm
  by_cases hpayload : h.declaredPayloadLength = 0#16
  · have hexec := decodeBytes_frame 0#8 s hroom hlen.ge hwindow (hnone.mpr hpayload)
    rw [respond_eq, hlen, hfields] at hexec
    rw [if_pos hpayload, if_pos hpayload, List.append_nil]
    exact hexec
  · have hexec := decodeBytes_mismatch 0#8 s hroom hlen.ge hwindow (mt hnone.mp hpayload)
    rw [respond_eq, hlen, hfields] at hexec
    rw [if_neg hpayload, if_neg hpayload, List.append_assoc]
    exact hexec

end Sys2Proof.Machine

/-! PROOFS. The Stream Framer's commands (43_framer.md R170 to R182): `OPEN` and `CLOSE` outcome by outcome, and `FEED`
said once by how the buffer with its chunk is cut: the frames it counts, and what it makes of the tail behind them. -/

namespace Sys2Proof.Machine

/-! ## OPEN and CLOSE -/

/-- Settles O31: out of range and not closed are the two rejections, and the third equation is the fresh connection. -/
theorem openInitialisesClosedSlot : Obligations.OpenInitialisesClosedSlot := by
  intro cid key s answer
  refine ⟨fun hrange => ?_, fun c hctx hphase => ?_, fun c hctx hclosed => ?_⟩
  · exact withContext_none _ hrange
  · exact (withContext_some _ hctx).trans (if_neg hphase)
  · exact (withContext_some _ hctx).trans (if_pos hclosed)

/-- Settles O32: the two rejections of an open context, and the reset context with the reason's condition. -/
theorem closeRemovesContext : Obligations.CloseRemovesContext := by
  intro cid reason s answer
  refine ⟨fun hrange => ?_, fun c hctx hphase => ?_, fun c hctx hopen => ⟨condInfo c.buf.length, condInfo_toNat, ?_⟩⟩
  · exact (withOpenContext_none _ hrange).trans (by simp [reject_eq, answer, opClose])
  · exact (withOpenContext_other _ hctx hphase).trans (by simp [reject_eq, answer, opClose])
  · refine (withOpenContext_connected _ hctx hopen).trans ?_
    rw [respond_eq, ← List.append_assoc]
    cases reason with
    | eof => rfl
    | err => rfl

/-! ## Counting frames, in the context and in the statistics -/

/-- A connection's context with frames counted in it, the buffer apart (44_stats.md R200, R201). -/
def countedContext (c : Context) (fs : List Bytes) : Context :=
  fs.foldl (fun c f => onFrame (be f 12 6) (be f 18 1) f.length c) c

/-- The statistics with frames counted in them (44_stats.md R202). -/
def countedGlobal (g : GlobalStats) (fs : List Bytes) : GlobalStats :=
  fs.foldl (fun g f => recordFrame (headerFields f).dataType f.length g) g

@[simp] theorem countedContext_nil (c : Context) : countedContext c [] = c := rfl

@[simp] theorem countedContext_cons (c : Context) (f : Bytes) (fs : List Bytes) :
    countedContext c (f :: fs) = countedContext (onFrame (be f 12 6) (be f 18 1) f.length c) fs := rfl

theorem countedContext_append (c : Context) (fs gs : List Bytes) :
    countedContext c (fs ++ gs) = countedContext (countedContext c fs) gs := List.foldl_append

@[simp] theorem countedGlobal_nil (g : GlobalStats) : countedGlobal g [] = g := rfl

@[simp] theorem countedGlobal_cons (g : GlobalStats) (f : Bytes) (fs : List Bytes) :
    countedGlobal g (f :: fs) = countedGlobal (recordFrame (headerFields f).dataType f.length g) fs := rfl

theorem countedGlobal_append (g : GlobalStats) (fs gs : List Bytes) :
    countedGlobal g (fs ++ gs) = countedGlobal (countedGlobal g fs) gs := List.foldl_append

/-- The loop's counting, field by field. -/
theorem countFrames_eq (cid : Byte) (p : Pass) (fs : List Bytes) : countFrames cid p fs =
    ⟨countedContext p.ctx fs, countedGlobal p.g fs, p.recs ++ fs.map (frameRecordOf cid), p.nframes + fs.length⟩ := by
  refine pass_eta _ _ ?_ ?_ (countFrames_recs cid p fs) (countFrames_nframes cid p fs)
  · induction fs generalizing p with
    | nil => rfl
    | cons f fs ih => exact ih (countFrame cid p f)
  · induction fs generalizing p with
    | nil => rfl
    | cons f fs ih => exact ih (countFrame cid p f)

@[simp] theorem countedContext_phase (c : Context) (fs : List Bytes) : (countedContext c fs).phase = c.phase := by
  induction fs generalizing c with
  | nil => rfl
  | cons f fs ih => simp [ih]

@[simp] theorem countedContext_addrKey (c : Context) (fs : List Bytes) :
    (countedContext c fs).addrKey = c.addrKey := by
  induction fs generalizing c with
  | nil => rfl
  | cons f fs ih => simp [ih]

@[simp] theorem countedContext_connTs (c : Context) (fs : List Bytes) : (countedContext c fs).connTs = c.connTs := by
  induction fs generalizing c with
  | nil => rfl
  | cons f fs ih => simp [ih]

@[simp] theorem countedGlobal_startTime (g : GlobalStats) (fs : List Bytes) :
    (countedGlobal g fs).startTime = g.startTime := by
  induction fs generalizing g with
  | nil => rfl
  | cons f fs ih => simp [ih]

theorem onFrame_withBuffer (dev : BitVec 48) (ch : Byte) (n : Nat) (c : Context) (b : Bytes) :
    onFrame dev ch n { c with buf := b } = { onFrame dev ch n c with buf := b } := by
  apply context_eta <;> simp

/-- Counting neither reads nor writes the buffer. -/
theorem countedContext_withBuffer (c : Context) (fs : List Bytes) (b : Bytes) :
    countedContext { c with buf := b } fs = { countedContext c fs with buf := b } := by
  induction fs generalizing c with
  | nil => rfl
  | cons f fs ih => rw [countedContext_cons, onFrame_withBuffer, ih, countedContext_cons]

/-! ## The cut of a buffer, and what becomes of its tail -/

/-- `b` is whole frames, in stream order, followed by a tail at which the extraction loop stops (R171). -/
structure Cut (b : Bytes) (fs : List Bytes) (tail : Bytes) : Prop where
  bytes : b = fs.flatten ++ tail
  frames : ∀ f ∈ fs, wellFormedFrame f
  final : finalTail tail

/-- What stays in the buffer of a tail at which the loop stops: all of it, or nothing (R173, R174, R176). -/
def keptBytes (tail : Bytes) : Bytes := if bufferInv tail then tail else []

/-- The condition a tail at which the loop stops raises: none, or `BadMagic` with its length (R173, R174, R176). -/
def tailConds (cid : Byte) (tail : Bytes) : List Record :=
  if bufferInv tail then [] else [.cond cid .badMagic (condInfo tail.length)]

section
variable {tail : Bytes}

theorem keptBytes_keep (h : bufferInv tail) : keptBytes tail = tail := if_pos h

theorem tailConds_keep (cid : Byte) (h : bufferInv tail) : tailConds cid tail = [] := if_pos h

theorem keptBytes_clear (h : badHead tail) : keptBytes tail = [] := if_neg (bufferInv_not_badHead · h)

theorem tailConds_clear (cid : Byte) (h : badHead tail) :
    tailConds cid tail = [.cond cid .badMagic (condInfo tail.length)] := if_neg (bufferInv_not_badHead · h)

theorem keptBytes_length_le (tail : Bytes) : (keptBytes tail).length ≤ tail.length := by
  unfold keptBytes
  split
  · exact Nat.le_refl _
  · exact Nat.zero_le _

/-- Whatever stays in the buffer is what may stand there between commands (R183). -/
theorem bufferInv_keptBytes (tail : Bytes) : bufferInv (keptBytes tail) := by
  unfold keptBytes
  split
  next hkeep => exact hkeep
  next => exact .inl (by decide)

theorem noRsp_tailConds (cid : Byte) (tail : Bytes) : NoRsp (tailConds cid tail) := by
  unfold tailConds
  split
  · exact noRsp_nil
  · exact noRsp_singleton rfl

theorem rawsOf_tailConds (cid : Byte) (tail : Bytes) : rawsOf (tailConds cid tail) = [] := by
  unfold tailConds
  split <;> rfl

end

/-- The context a `FEED` leaves, by the cut of the buffer with the chunk: the frames are counted in it, and it buffers
what is kept of the tail. -/
def fedContext (c : Context) (fs : List Bytes) (tail : Bytes) : Context :=
  { countedContext c fs with buf := keptBytes tail }

section
variable (c : Context) (fs : List Bytes) (tail : Bytes)

@[simp] theorem fedContext_phase : (fedContext c fs tail).phase = c.phase := countedContext_phase c fs
@[simp] theorem fedContext_buf : (fedContext c fs tail).buf = keptBytes tail := rfl
@[simp] theorem fedContext_addrKey : (fedContext c fs tail).addrKey = c.addrKey := countedContext_addrKey c fs
@[simp] theorem fedContext_connTs : (fedContext c fs tail).connTs = c.connTs := countedContext_connTs c fs

/-- A buffer that held anything else before makes no difference. -/
theorem fedContext_withBuffer (b : Bytes) : fedContext { c with buf := b } fs tail = fedContext c fs tail := by
  rw [fedContext, countedContext_withBuffer, fedContext]

/-- Two `FEED`s count the frames of both, and the second tail is what stays. -/
theorem fedContext_fedContext (fs' : List Bytes) (tail' : Bytes) :
    fedContext (fedContext c fs tail) fs' tail' = fedContext c (fs ++ fs') tail' := by
  conv_lhs => rw [fedContext.eq_def c, fedContext_withBuffer, fedContext, ← countedContext_append]
  rfl

end

/-- The pass of a `FEED`, by the cut of the buffer with the chunk. -/
theorem feedPass_cut (cid : Byte) {chunk tail : Bytes} {c : Context} (g : GlobalStats) {fs : List Bytes}
    (hp : c.phase = .connected) (hcut : Cut (c.buf ++ chunk) fs tail) : feedPass cid chunk c g =
      ⟨fedContext c fs tail, countedGlobal g fs,
        fs.map (frameRecordOf cid) ++ tailConds cid tail, fs.length⟩ := by
  obtain ⟨hbytes, hfs, hkeep | hbad⟩ := hcut
  · rw [feedPass_keep cid chunk c g fs tail hp hbytes hfs hkeep, countFrames_eq, fedContext, keptBytes_keep hkeep,
      tailConds_keep cid hkeep]
    simp [withBuf]
  · rw [feedPass_clear cid chunk c g fs tail hp hbytes hfs hbad, countFrames_eq, fedContext, keptBytes_clear hbad,
      tailConds_clear cid hbad]
    simp [withBuf]

/-- The records a `FEED` emits, by the cut of the buffer with the chunk (R177 to R180). -/
def fedRecords (cid : Byte) (fs : List Bytes) (tail : Bytes) : List Record :=
  fs.map (frameRecordOf cid) ++ tailConds cid tail ++ [.rsp 0x02#8 cid .ok (BitVec.ofNat 64 fs.length)]

section
variable (cid : Byte) (fs : List Bytes) {tail : Bytes}

theorem fedRecords_keep (h : bufferInv tail) : fedRecords cid fs tail =
    fs.map (frameRecordOf cid) ++ [.rsp 0x02#8 cid .ok (BitVec.ofNat 64 fs.length)] := by
  rw [fedRecords, tailConds_keep cid h, List.append_nil]

theorem fedRecords_clear (h : badHead tail) : fedRecords cid fs tail = fs.map (frameRecordOf cid) ++
    [.cond cid .badMagic (condInfo tail.length), .rsp 0x02#8 cid .ok (BitVec.ofNat 64 fs.length)] := by
  rw [fedRecords, tailConds_clear cid h, List.append_assoc, List.singleton_append]

/-- The frames a `FEED` emits are those of its cut. -/
theorem rawsOf_fedRecords (tail : Bytes) : rawsOf (fedRecords cid fs tail) = fs := by
  rw [fedRecords, rawsOf_append, rawsOf_append, rawsOf_map_frameRecordOf, rawsOf_tailConds, List.append_nil]
  exact List.append_nil fs

end

/-! ## A `FEED` that is carried out -/

/-- The conditions under which a `FEED` is carried out: its bytes are there, its context is connected and they fit
(R171). -/
structure FeedReady (cid : Byte) (len : BitVec 32) (s : State) (chunk rest : Bytes) (c : Context) : Prop where
  din : s.din = chunk ++ rest
  len_eq : chunk.length = len.toNat
  ctx : s.ctx[cid.toNat]? = some c
  phase : c.phase = .connected
  room : s.bufCap.admits (c.buf.length + len.toNat) = true

/-- The state a carried out `FEED` leaves, by the cut of the buffer with the chunk. -/
def fedState (cid : Byte) (s : State) (c : Context) (rest : Bytes) (fs : List Bytes) (tail : Bytes) : State :=
  { s with
    ctx := s.ctx.set cid.toNat (fedContext c fs tail)
    g := countedGlobal s.g fs
    host := s.host.tail
    din := rest
    out := s.out ++ fedRecords cid fs tail }

section
variable {cid : Byte} {len : BitVec 32} {s : State} {chunk rest tail : Bytes} {c : Context} {fs : List Bytes}

@[simp] theorem fedState_bufCap : (fedState cid s c rest fs tail).bufCap = s.bufCap := rfl
@[simp] theorem fedState_g : (fedState cid s c rest fs tail).g = countedGlobal s.g fs := rfl
@[simp] theorem fedState_host : (fedState cid s c rest fs tail).host = s.host.tail := rfl
@[simp] theorem fedState_din : (fedState cid s c rest fs tail).din = rest := rfl
@[simp] theorem fedState_out : (fedState cid s c rest fs tail).out = s.out ++ fedRecords cid fs tail := rfl

/-- The fed context, where there is one. -/
theorem fedState_ctx_self (hctx : s.ctx[cid.toNat]? = some c) :
    (fedState cid s c rest fs tail).ctx[cid.toNat]? = some (fedContext c fs tail) := by
  obtain ⟨hlt, -⟩ := List.getElem?_eq_some_iff.mp hctx
  exact List.getElem?_set_self hlt

/-- What `FEED` does, by the cut of the buffer with the chunk. -/
theorem FeedReady.exec_cut (h : FeedReady cid len s chunk rest c) (hcut : Cut (c.buf ++ chunk) fs tail) :
    exec (.feed cid len) s = .next (fedState cid s c rest fs tail) := by
  have hfeed := execFeed_carriedOut h.din h.len_eq h.ctx h.phase h.room
  rw [feedPass_cut cid s.g h.phase hcut] at hfeed
  exact hfeed

/-- Every buffer has a cut, so every `FEED` that is ready leaves the state of one. -/
theorem FeedReady.exec_cases (h : FeedReady cid len s chunk rest c) :
    ∃ fs tail, Cut (c.buf ++ chunk) fs tail ∧ exec (.feed cid len) s = .next (fedState cid s c rest fs tail) := by
  obtain ⟨fs, tail, hbytes, hfs, hfinal⟩ := exists_cut (c.buf ++ chunk)
  exact ⟨fs, tail, ⟨hbytes, hfs, hfinal⟩, h.exec_cut ⟨hbytes, hfs, hfinal⟩⟩

/-- A buffer in which no whole frame is found is its own tail. -/
theorem cut_of_finalTail {b : Bytes} (h : finalTail b) : Cut b [] b := ⟨rfl, List.forall_mem_nil _, h⟩

/-- A whole frame before a cut. -/
theorem Cut.cons {f b : Bytes} (hf : wellFormedFrame f) (h : Cut b fs tail) : Cut (f ++ b) (f :: fs) tail where
  bytes := by rw [h.bytes, List.flatten_cons, List.append_assoc]
  frames := List.forall_mem_cons.mpr ⟨hf, h.frames⟩
  final := h.final

end

/-! ## The statements about one `FEED` -/

/-- Settles O33: the bytes are taken, then each rejection in its order. -/
theorem feedRejectionsDropTheChunk : Obligations.FeedRejectionsDropTheChunk := by
  intro cid len s chunk rest hdin hlen answer
  refine ⟨fun hrange => ?_, fun c hctx hphase => ?_, fun c hctx hopen hfull => ?_⟩
  all_goals rw [exec, execFeed, takeDin_ready _ hdin hlen]
  · exact withOpenContext_none (s := { s with din := rest }) _ hrange
  · exact withOpenContext_other (s := { s with din := rest }) _ hctx hphase
  · exact (withOpenContext_connected (s := { s with din := rest }) _ hctx hopen).trans
      (withRoom_full (s := { s with din := rest }) _ hfull)

/-- Settles O34: the state of the buffer's cut; its records are the cut's frames and the tail's condition. -/
theorem feedIsCarriedOut : Obligations.FeedIsCarriedOut := by
  intro cid len s chunk rest c hdin hlen hctx hopen hroom
  obtain ⟨fs, tail, -, hexec⟩ := FeedReady.exec_cases ⟨hdin, hlen, hctx, hopen, hroom⟩
  have hraws : rawsOf (fs.map (frameRecordOf cid) ++ tailConds cid tail) = fs := by
    rw [rawsOf_append, rawsOf_map_frameRecordOf, rawsOf_tailConds, List.append_nil]
  refine ⟨fedContext c fs tail, countedGlobal s.g fs, fs.map (frameRecordOf cid) ++ tailConds cid tail, ?_,
    (fedContext_phase c fs tail).trans hopen, fedContext_addrKey c fs tail, fedContext_connTs c fs tail,
    countedGlobal_startTime s.g fs, noRsp_append (List.forall_mem_map.mpr fun _ _ => rfl) (noRsp_tailConds cid tail)⟩
  rw [hexec, hraws, fedState, fedRecords, List.append_assoc s.out]

/-- Settles O35: the buffer is its own tail, which is kept. -/
theorem feedKeepsIncompleteFrame : Obligations.FeedKeepsIncompleteFrame := by
  intro cid len s chunk rest c hdin hlen hctx hopen hroom hkeep
  rw [FeedReady.exec_cut ⟨hdin, hlen, hctx, hopen, hroom⟩ (cut_of_finalTail (.inl hkeep)), fedState, fedContext,
    keptBytes_keep hkeep, fedRecords_keep cid [] hkeep]
  rfl

/-- Settles O36: the buffer is its own tail, which is cleared. -/
theorem feedClearsOnBadMagic : Obligations.FeedClearsOnBadMagic := by
  intro cid len s chunk rest c hdin hlen hctx hopen hroom hbad
  refine ⟨condInfo (c.buf ++ chunk).length, condInfo_toNat, ?_⟩
  rw [FeedReady.exec_cut ⟨hdin, hlen, hctx, hopen, hroom⟩ (cut_of_finalTail (.inr hbad)), fedState, fedContext,
    keptBytes_clear hbad, fedRecords_clear cid [] hbad]
  rfl

/-- Settles O38: the cut of the buffer with the chunk, by what becomes of its tail. -/
theorem feedEmitsStreamInOrder : Obligations.FeedEmitsStreamInOrder := by
  intro cid len s t chunk rest c hdin hlen hctx hopen hroom hexec
  obtain ⟨fs, tail, hcut, hfed⟩ := FeedReady.exec_cases ⟨hdin, hlen, hctx, hopen, hroom⟩
  cases hfed.symm.trans hexec
  have hcount : fs.length * 34 ≤ c.buf.length + len.toNat := by
    have hframes := length_flatten_frames hcut.frames
    have hbytes := congrArg List.length hcut.bytes
    rw [List.length_append, List.length_append] at hbytes
    omega
  refine ⟨fs, tail, _, hcut.bytes, hcut.frames, fedState_ctx_self hctx, hcount, ?_⟩
  cases hcut.final with
  | inl hkeep => exact .inl ⟨keptBytes_keep hkeep, hkeep, by simp [fedRecords_keep cid fs hkeep]⟩
  | inr hbad =>
    exact .inr ⟨keptBytes_clear hbad, hbad, _, condInfo_toNat, by simp [fedRecords_clear cid fs hbad]⟩

/-! ## Peeling one frame -/

/-- The data type of a frame, in plain arithmetic on its packed byte (30_encoding.md R94). -/
theorem dataType_eq_iff (f : Bytes) (k : BitVec 4) :
    (headerFields f).dataType = k ↔ (be f 19 1).toNat % 16 = k.toNat := by
  have hfield : (headerFields f).dataType = BitVec.ofNat 4 ((be f 19 1).toNat % 16) :=
    congrArg Dt.dataType (unpkDt_eq (be f 19 1))
  rw [hfield, ← BitVec.toNat_inj, BitVec.toNat_ofNat, Nat.mod_mod]

/-- Counting one frame in the statistics, by its packed byte (44_stats.md R202). -/
theorem recordFrame_eq (f : Bytes) (g : GlobalStats) : recordFrame (headerFields f).dataType f.length g =
    { g with
      totalPkts := g.totalPkts + 1#64
      totalBytes := g.totalBytes + BitVec.ofNat 64 f.length
      iframeCnt := g.iframeCnt + if (be f 19 1).toNat % 16 = 0 then 1#64 else 0#64
      pframeCnt := g.pframeCnt + if (be f 19 1).toNat % 16 = 1 then 1#64 else 0#64 } := by
  have hi : (headerFields f).dataType = 0#4 ↔ (be f 19 1).toNat % 16 = 0 := dataType_eq_iff f 0#4
  have hp : (headerFields f).dataType = 1#4 ↔ (be f 19 1).toNat % 16 = 1 := dataType_eq_iff f 1#4
  simp only [recordFrame, hi, hp, add_ite, BitVec.add_zero]

/-- Counting one frame in its context and emptying the buffer (44_stats.md R200, R201). -/
theorem onFrame_emptied (f : Bytes) (c : Context) :
    { onFrame (be f 12 6) (be f 18 1) f.length c with buf := [] } =
    { c with
      buf := []
      pktCnt := c.pktCnt + 1#64
      byteCnt := c.byteCnt + BitVec.ofNat 64 f.length
      idSet := true
      devIdRaw := if c.idSet then c.devIdRaw else be f 12 6
      chan := if c.idSet then c.chan else be f 18 1 } := by
  apply context_eta <;> simp

/-- Settles O37: a cut of the bytes behind the frame is, with the frame before it, a cut of the whole buffer; counting
the frame first and then the others is counting them all. -/
theorem feedPeelsOneFrame : Obligations.FeedPeelsOneFrame := by
  intro cid len len' s chunk rest f more c hdin hlen hctx hopen hroom hbuf hf hmore counted total
  have hwhole : FeedReady cid len s chunk rest c := ⟨hdin, hlen, hctx, hopen, hroom⟩
  obtain ⟨hlt, -⟩ := List.getElem?_eq_some_iff.mp hctx
  have hshort : ([] : Bytes).length + len'.toNat ≤ c.buf.length + len.toNat := by
    have := congrArg List.length hbuf
    simp only [List.length_append, List.length_nil] at this ⊢
    omega
  have hmoreReady : FeedReady cid len' { s with
      ctx := s.ctx.set cid.toNat counted, g := total, din := more ++ rest,
      out := s.out ++ [frameRecordOf cid f] } more rest counted :=
    ⟨rfl, hmore, List.getElem?_set_self hlt, hopen, admits_mono hroom hshort⟩
  obtain ⟨fs, tail, hcut, hrest⟩ := hmoreReady.exec_cases
  have hcounted : counted = { onFrame (be f 12 6) (be f 18 1) f.length c with buf := [] } := (onFrame_emptied f c).symm
  have htotal : total = recordFrame (headerFields f).dataType f.length s.g := (recordFrame_eq f s.g).symm
  refine ⟨fedState cid s c rest (f :: fs) tail, fs.map (frameRecordOf cid) ++ tailConds cid tail, fs.length, ?_, ?_⟩
  · rw [hrest, fedState, fedState, hcounted, htotal, fedContext_withBuffer]
    simp [fedContext, fedRecords]
  · rw [hwhole.exec_cut (hbuf ▸ hcut.cons hf)]
    simp [fedState, fedContext, fedRecords]

end Sys2Proof.Machine

/-! PROOFS. The invariant between commands (43_framer.md R183; 10_state.md R24, R32): a `FEED` leaves a context between
commands, and so does every step; with it, the empty chunk and chunks of at most `MAX_CHUNK` bytes (00_scope.md R9). -/

namespace Sys2Proof.Machine

/-! ## Contexts between commands -/

/-- After any frame is counted the identity is set; before, nothing has changed. -/
theorem identityInv_countedContext {c : Context} (h : identityInv c) (fs : List Bytes) :
    identityInv (countedContext c fs) := by
  induction fs generalizing c with
  | nil => exact h
  | cons f fs ih => exact ih fun hunset => by simp at hunset

/-- A connected context between commands has the two invariants of a connection. -/
theorem contextInv_connected {c : Context} (h : contextInv c) (hopen : c.phase = .connected) :
    bufferInv c.buf ∧ identityInv c := by
  obtain rfl | ⟨-, hbuf, hid⟩ := h
  · cases hopen
  · exact ⟨hbuf, hid⟩

theorem contextInv_opened (addrKey : AddrKey) (now : Time) : contextInv (Context.opened addrKey now) :=
  .inr ⟨rfl, .inl (Nat.zero_lt_succ _), fun _ => ⟨rfl, rfl, rfl, rfl⟩⟩

/-- What a `FEED` leaves in its context stands between commands again (R182, R183). -/
theorem contextInv_feedPass (cid : Byte) (chunk : Bytes) {c : Context} (g : GlobalStats) (h : contextInv c)
    (hopen : c.phase = .connected) : contextInv (feedPass cid chunk c g).ctx := by
  obtain ⟨-, hid⟩ := contextInv_connected h hopen
  obtain ⟨fs, tail, hbytes, hfs, hfinal⟩ := exists_cut (c.buf ++ chunk)
  rw [feedPass_cut cid g hopen ⟨hbytes, hfs, hfinal⟩]
  exact .inr ⟨(countedContext_phase c fs).trans hopen, bufferInv_keptBytes tail, identityInv_countedContext hid fs⟩

/-! ## States between commands -/

section
variable {s t : State}

theorem contextInv_of_inv {k : Nat} {c : Context} (hs : s.Inv) (hctx : s.ctx[k]? = some c) : contextInv c := by
  obtain ⟨-, -, -, hall⟩ := hs
  exact hall c (List.mem_of_getElem? hctx)

/-- The invariant speaks of the contexts and the capacity alone. -/
theorem inv_of_eq (hs : s.Inv) (hctx : t.ctx = s.ctx) (hcap : t.bufCap = s.bufCap) : t.Inv := by
  rwa [State.Inv, hctx, hcap]

/-- Writing a context that may stand between commands keeps the invariant. -/
theorem inv_of_ctx_set {k : Nat} {c : Context} (hs : s.Inv) (hc : contextInv c) (hctx : t.ctx = s.ctx.set k c)
    (hcap : t.bufCap = s.bufCap) : t.Inv := by
  obtain ⟨hpos, hmax, hvalid, hall⟩ := hs
  refine ⟨by simpa [hctx] using hpos, by simpa [hctx] using hmax, hcap ▸ hvalid, fun d hd => ?_⟩
  rw [hctx] at hd
  obtain hold | rfl := List.mem_or_eq_of_mem_set hd
  · exact hall d hold
  · exact hc

theorem inv_resetState (hs : s.Inv) : (resetState s).Inv := by
  obtain ⟨hpos, hmax, hvalid, -⟩ := hs
  exact resetWith_inv s.hostTime hpos hmax hvalid

theorem CommandEffect.inv_next {i : Instr} (h : CommandEffect s i t) (hs : s.Inv) : t.Inv := by
  cases h with
  | waits => exact hs
  | answers => exact inv_of_eq hs rfl rfl
  | opens => exact inv_of_ctx_set hs (contextInv_opened _ _) rfl rfl
  | @feeds cid _ c chunk _ _ _ _ hctx hopen _ =>
    exact inv_of_ctx_set hs (contextInv_feedPass cid chunk s.g (contextInv_of_inv hs hctx) hopen) rfl rfl
  | closes => exact inv_of_ctx_set hs (.inl rfl) rfl rfl

theorem StepEffect.inv_next (h : StepEffect s t) (hs : s.Inv) : t.Inv := by
  cases h with
  | idles => exact hs
  | sets_time | rejects => exact inv_of_eq hs rfl rfl
  | resets => exact inv_resetState (s := retire s) (inv_of_eq hs rfl rfl)
  | commands _ _ heffect => exact heffect.inv_next hs

end

/-- Settles O47: everything a step can do keeps the invariant. -/
theorem stepKeepsInvariant : Obligations.StepKeepsInvariant :=
  fun _ _ hs hstep => (step_effect hstep).inv_next hs

/-! ## What fits between commands -/

/-- A buffer between commands lacks at least one byte of a frame of the greatest length (R183). -/
theorem bufferInv_length_le {b : Bytes} (h : bufferInv b) : b.length ≤ 65568 := by
  have hfield : (be b 32 2).toNat < 65536 := (be b 32 2).isLt
  obtain hshort | ⟨-, hpartial⟩ := h
  · omega
  · omega

/-- Between commands a connected context's buffer is one that is kept. -/
theorem bufferInv_of_inv {s : State} {k : Nat} {c : Context} (hs : s.Inv) (hctx : s.ctx[k]? = some c)
    (hopen : c.phase = .connected) : bufferInv c.buf :=
  (contextInv_connected (contextInv_of_inv hs hctx) hopen).1

/-- Between commands a chunk within `MAX_CHUNK` has room (00_scope.md R9). -/
theorem room_of_inv {s : State} {k n : Nat} {c : Context} (hs : s.Inv) (hctx : s.ctx[k]? = some c)
    (hopen : c.phase = .connected) (hn : ∀ m, s.bufCap.maxChunk = some m → n ≤ m) :
    s.bufCap.admits (c.buf.length + n) = true :=
  have ⟨_, _, hvalid, _⟩ := hs
  admits_add_chunk hvalid (bufferInv_length_le (bufferInv_of_inv hs hctx hopen)) hn

/-- Settles O41: no bytes behind a buffer that is kept leave it as it is, and its context with it. -/
theorem emptyChunkChangesNothing : Obligations.EmptyChunkChangesNothing := by
  intro cid s c hs hctx hopen
  have hkeep : bufferInv (c.buf ++ []) := by simpa using bufferInv_of_inv hs hctx hopen
  have hroom := room_of_inv hs hctx hopen (n := 0) fun _ _ => Nat.zero_le _
  have hsame : s.ctx.set cid.toNat { c with buf := c.buf ++ [] } = s.ctx := by
    obtain ⟨hlt, hget⟩ := List.getElem?_eq_some_iff.mp hctx
    rw [List.append_nil, ← hget]
    exact List.set_getElem_self hlt
  rw [feedKeepsIncompleteFrame cid 0#32 s [] s.din c rfl rfl hctx hopen hroom hkeep, hsame]

/-- Settles O42: the chunk has room, so the `FEED` is carried out. -/
theorem boundedChunksNeverOverflow : Obligations.BoundedChunksNeverOverflow := by
  intro cid len s c hs hctx hopen hmax hdin
  obtain ⟨c', g', recs, hexec, -⟩ := feedIsCarriedOut cid len s (s.din.take len.toNat) (s.din.drop len.toNat) c
    (List.take_append_drop ..).symm (List.length_take_of_le hdin) hctx hopen (room_of_inv hs hctx hopen hmax)
  exact ⟨_, recs, _, hexec, rfl⟩

end Sys2Proof.Machine

/-! PROOFS. Streams of bytes fed in several chunks (43_framer.md R185 to R189): the cut of the concatenation from the
cuts of the chunks, queued `FEED`s as steps of a run, reassembly under any chunking, and resynchronisation. -/

namespace Sys2Proof.Machine

/-! ## Two chunks and one -/

/-- Behind a tail that is kept, the cut goes on where it stopped. -/
theorem Cut.append {b chunk tail tail' : Bytes} {fs fs' : List Bytes} (h : Cut b fs tail)
    (h' : Cut (tail ++ chunk) fs' tail') : Cut (b ++ chunk) (fs ++ fs') tail' where
  bytes := by rw [h.bytes, List.append_assoc, h'.bytes, List.flatten_append, List.append_assoc]
  frames := List.forall_mem_append.mpr ⟨h.frames, h'.frames⟩
  final := h'.final

/-- A `FEED` that raises no condition keeps its tail. -/
theorem bufferInv_of_noCond {cid : Byte} {fs : List Bytes} {tail : Bytes} (hfinal : finalTail tail)
    (hnone : ∀ r ∈ fedRecords cid fs tail, r.isCond = false) : bufferInv tail := by
  refine hfinal.resolve_right fun hbad => ?_
  have hmem : Record.cond cid .badMagic (condInfo tail.length) ∈ fedRecords cid fs tail := by
    simp [fedRecords_clear cid fs hbad]
  cases hnone _ hmem

/-- Settles O44: without a condition both tails are kept, so the cuts of the two chunks make the cut of both, and
counting the frames of one after those of the other is counting them all. -/
theorem chunkBoundaryInvisibleWithoutBadMagic : Obligations.ChunkBoundaryInvisibleWithoutBadMagic := by
  intro cid l1 l2 l12 s t1 t2 k1 k2 rest c recs1 recs2 hdin hlen1 hlen2 hlen12 hctx hopen hroom hexec1 hexec2
    hout1 hout2 hnone1 hnone2
  have hready1 : FeedReady cid l1 s k1 (k2 ++ rest) c :=
    ⟨hdin, hlen1, hctx, hopen, admits_mono hroom (by omega)⟩
  have hready12 : FeedReady cid l12 s (k1 ++ k2) rest c :=
    ⟨by rw [hdin, List.append_assoc], by rw [List.length_append]; omega, hctx, hopen, hroom⟩
  obtain ⟨fs1, tail1, hcut1, hfed1⟩ := hready1.exec_cases
  cases hfed1.symm.trans hexec1
  obtain rfl := List.append_cancel_left hout1
  have hkeep1 : keptBytes tail1 = tail1 := keptBytes_keep (bufferInv_of_noCond hcut1.final hnone1)
  have hbytes1 := congrArg List.length hcut1.bytes
  rw [List.length_append, List.length_append] at hbytes1
  have hready2 : FeedReady cid l2 (fedState cid s c (k2 ++ rest) fs1 tail1) k2 rest
      (fedContext c fs1 tail1) :=
    ⟨rfl, hlen2, fedState_ctx_self hctx, (fedContext_phase ..).trans hopen,
      admits_mono hroom (by rw [fedContext_buf, hkeep1]; omega)⟩
  obtain ⟨fs2, tail2, hcut2, hfed2⟩ := hready2.exec_cases
  rw [fedContext_buf, hkeep1] at hcut2
  cases hfed2.symm.trans hexec2
  obtain rfl := List.append_cancel_left hout2
  have hcut12 : Cut (c.buf ++ (k1 ++ k2)) (fs1 ++ fs2) tail2 := by
    rw [← List.append_assoc]
    exact hcut1.append hcut2
  refine ⟨_, _, hready12.exec_cut hcut12, ?_, countedGlobal_append s.g fs1 fs2, rfl, rfl, ?_⟩
  · simp only [fedState, fedContext_fedContext, List.set_set]
  · simp only [rawsOf_fedRecords]

/-! ## Frames behind bad bytes -/

/-- Settles O46: the chunk is its own cut, with the bad bytes and all that follows them as its tail. -/
theorem framesAfterBadMagicAreLost : Obligations.FramesAfterBadMagicAreLost := by
  intro cid len s c frames bad rest hctx hopen hempty hframes hbad hdin hlen hroom
  have hready : FeedReady cid len s (frames.flatten ++ bad) rest c :=
    ⟨hdin, hlen, hctx, hopen, by rw [hempty]; simpa using hroom⟩
  have hcut : Cut (c.buf ++ (frames.flatten ++ bad)) frames bad :=
    ⟨by rw [hempty, List.nil_append], hframes, .inr hbad⟩
  have hsize : bad.length < 2 ^ 32 := by
    have := len.isLt
    rw [List.length_append] at hlen
    omega
  refine ⟨_, _, hready.exec_cut hcut, rfl, fedState_ctx_self hctx, keptBytes_clear hbad, ?_, ?_⟩
  · exact (fedContext_phase ..).trans hopen
  · simp [fedRecords_clear cid frames hbad, condInfo_of_lt hsize]

/-! ## Runs of queued `FEED`s -/

theorem run_zero (s : State) : run 0 s = .next s := rfl

theorem coreRun_succ_of_step {M : Host.Core} {k : Nat} {s t : M.State} (h : M.step s = .next t) :
    M.run (k + 1) s = M.run k t := by
  rw [Host.Core.run, h]

theorem run_succ_of_step {k : Nat} {s t : State} (h : step s = .next t) : run (k + 1) s = run k t :=
  coreRun_succ_of_step (M := Sys2Proof.core) h

/-- One step more, at the end of a run. -/
theorem run_succ {k : Nat} {s t : State} (h : run k s = .next t) : run (k + 1) s = step t := by
  induction k generalizing s with
  | zero =>
    obtain rfl : s = t := Host.Outcome.next.inj h
    obtain ⟨u, hu⟩ := everyStepCompletes s
    rw [run_succ_of_step hu, run_zero, hu]
  | succ k ih =>
    obtain ⟨u, hu⟩ := everyStepCompletes s
    rw [run_succ_of_step hu] at h ⊢
    exact ih h

/-- The step of a queued `FEED` whose chunk is at the head of data-in. -/
theorem step_queued_feed {cid : Byte} {s : State} {chunk rest tail : Bytes} {c : Context} {chunks fs : List Bytes}
    {moreHost : List HostEvent} (hhost : s.host = feedWords cid (chunk :: chunks) ++ moreHost)
    (hdin : s.din = chunk ++ rest) (hsize : chunk.length < 2 ^ 32) (hctx : s.ctx[cid.toNat]? = some c)
    (hopen : c.phase = .connected) (hroom : s.bufCap.admits (c.buf.length + chunk.length) = true)
    (hcut : Cut (c.buf ++ chunk) fs tail) :
    step s = .next (fedState cid s c rest fs tail) ∧
    (fedState cid s c rest fs tail).host = feedWords cid chunks ++ moreHost := by
  have hlen : chunk.length = (BitVec.ofNat 32 chunk.length).toNat := by
    rw [BitVec.toNat_ofNat, Nat.mod_eq_of_lt hsize]
  have hready : FeedReady cid (BitVec.ofNat 32 chunk.length) s chunk rest c :=
    ⟨hdin, hlen, hctx, hopen, hlen ▸ hroom⟩
  refine ⟨?_, by rw [fedState_host, hhost]; rfl⟩
  rw [step_word_ok hhost (decodeInvertsEncode (.feed cid _) rfl), hready.exec_cut hcut]

/-! ## Reassembly -/

/-- The first bytes of a stream of whole frames are some of the frames and a tail that is kept, shorter than the frame
it belongs to. -/
theorem exists_cut_of_stream {a b : Bytes} {fs : List Bytes} (hfs : ∀ f ∈ fs, wellFormedFrame f)
    (h : a ++ b = fs.flatten) :
    ∃ (j : Nat) (tail : Bytes), a = (fs.take j).flatten ++ tail ∧ bufferInv tail ∧
      ∀ f, fs[j]? = some f → tail.length < f.length := by
  induction fs generalizing a with
  | nil =>
    obtain ⟨rfl, -⟩ := List.append_eq_nil_iff.mp h
    exact ⟨0, [], rfl, .inl (by decide), fun f hf => by cases hf⟩
  | cons f fs ih =>
    obtain ⟨hf, hfs⟩ := List.forall_mem_cons.mp hfs
    obtain ⟨hlen, hmagic, hsize⟩ := hf
    by_cases hshort : a.length < f.length
    · refine ⟨0, a, rfl, ?_, fun f' hf' => by cases hf'; exact hshort⟩
      have ha : a = f.take a.length := by
        have := congrArg (List.take a.length) h
        rwa [List.take_left, List.flatten_cons, List.take_append_of_le_length hshort.le] at this
      by_cases hheader : a.length < 34
      · exact .inl hheader
      · refine .inr ⟨?_, ?_⟩
        · rw [ha, be_take _ _ _ _ (by omega), hmagic]
        · rw [ha, be_take _ _ _ _ (by omega), ← ha]
          omega
    · have hsplit : a = f ++ a.drop f.length := by
        have := congrArg (List.take f.length) h
        rw [List.take_append_of_le_length (by omega), List.flatten_cons, List.take_left] at this
        conv_lhs => rw [← List.take_append_drop f.length a, this]
      have hrest : a.drop f.length ++ b = fs.flatten := by
        rw [hsplit, List.flatten_cons, List.append_assoc] at h
        exact List.append_cancel_left h
      obtain ⟨j, tail, hbytes, hkeep, hnext⟩ := ih hfs hrest
      refine ⟨j + 1, tail, ?_, hkeep, hnext⟩
      rw [List.take_succ_cons, List.flatten_cons, List.append_assoc, ← hbytes, ← hsplit]

/-- The records of `FRAME` kind among those of frames. -/
theorem filter_isFrame_map (cid : Byte) (fs : List Bytes) :
    (fs.map (frameRecordOf cid)).filter Record.isFrame = fs.map (frameRecordOf cid) :=
  List.filter_eq_self.mpr (List.forall_mem_map.mpr fun _ _ => rfl)

/-- The raw bytes are those of the `FRAME` records. -/
theorem rawsOf_filter_isFrame (recs : List Record) : rawsOf (recs.filter Record.isFrame) = rawsOf recs := by
  induction recs with
  | nil => rfl
  | cons r recs ih =>
    cases r with
    | frame => exact congrArg (List.cons _) ih
    | cond | bcd | rsp => exact ih

section
variable (cid : Byte) (s : State) (frames chunks : List Bytes) (moreHost : List HostEvent) (moreDin : Bytes)

/-- The state `t` after `k` of the `FEED`s queued in `s`: `recs` are out, they hold the first `m` frames, and the
context `ck` buffers what was delivered behind those, less than the next frame (R185). -/
structure Reassembled (k : Nat) (t : State) (recs : List Record) (m : Nat) (ck : Context) : Prop where
  bufCap : t.bufCap = s.bufCap
  host : t.host = feedWords cid (chunks.drop k) ++ moreHost
  din : t.din = (chunks.drop k).flatten ++ moreDin
  out : t.out = s.out ++ recs
  emitted : recs.filter Record.isFrame = (frames.take m).map (frameRecordOf cid)
  noCond : ∀ r ∈ recs, r.isCond = false
  ctx : t.ctx[cid.toNat]? = some ck
  phase : ck.phase = .connected
  delivered : (chunks.take k).flatten = (frames.take m).flatten ++ ck.buf
  incomplete : ∀ f, frames[m]? = some f → ck.buf.length < f.length

end

section
variable {cid : Byte} {s t : State} {frames chunks : List Bytes} {moreHost : List HostEvent} {moreDin : Bytes}
  {k m : Nat} {recs : List Record} {ck : Context}

theorem Reassembled.raws (h : Reassembled cid s frames chunks moreHost moreDin k t recs m ck) :
    rawsOf recs = frames.take m := by
  rw [← rawsOf_filter_isFrame, h.emitted, rawsOf_map_frameRecordOf]

/-- The frames out have been delivered. -/
theorem Reassembled.emitted_length_le (h : Reassembled cid s frames chunks moreHost moreDin k t recs m ck) :
    (frames.take m).flatten.length ≤ (chunks.take k).flatten.length := by
  rw [h.delivered, List.length_append]
  exact Nat.le_add_right _ _

/-- The next frame has not been delivered to its last byte. -/
theorem Reassembled.lt_next_length (h : Reassembled cid s frames chunks moreHost moreDin k t recs m ck)
    (hm : m < frames.length) : (chunks.take k).flatten.length < (frames.take (m + 1)).flatten.length := by
  have hnext := h.incomplete _ (List.getElem?_eq_getElem hm)
  rw [h.delivered, List.take_succ_eq_append_getElem hm, List.flatten_append, List.length_append, List.length_append]
  simpa using hnext

/-- When all is delivered, every frame is out and nothing is buffered. -/
theorem Reassembled.all_emitted (hstream : chunks.flatten = frames.flatten)
    (h : Reassembled cid s frames chunks moreHost moreDin chunks.length t recs m ck) :
    frames.take m = frames ∧ ck.buf = [] := by
  have hdelivered := h.delivered
  rw [List.take_length, hstream] at hdelivered
  have hm : frames.length ≤ m := by
    by_contra hlt
    have hle := h.lt_next_length (not_le.mp hlt)
    have hpart : (frames.take (m + 1)).flatten.length ≤ frames.flatten.length :=
      ((List.take_sublist _ _).flatten).length_le
    rw [List.take_length, hstream] at hle
    omega
  rw [List.take_of_length_le hm] at hdelivered ⊢
  exact ⟨rfl, List.self_eq_append_right.mp hdelivered⟩

/-- Before any `FEED`. -/
theorem reassembled_zero {c : Context} (hctx : s.ctx[cid.toNat]? = some c) (hopen : c.phase = .connected)
    (hempty : c.buf = []) (hframes : ∀ f ∈ frames, wellFormedFrame f)
    (hhost : s.host = feedWords cid chunks ++ moreHost) (hdin : s.din = chunks.flatten ++ moreDin) :
    Reassembled cid s frames chunks moreHost moreDin 0 s [] 0 c where
  bufCap := rfl
  host := hhost
  din := hdin
  out := (List.append_nil _).symm
  emitted := rfl
  noCond := List.forall_mem_nil _
  ctx := hctx
  phase := hopen
  delivered := by rw [hempty]; rfl
  incomplete f hf := by
    obtain ⟨hlen, -⟩ := hframes f (List.mem_of_getElem? hf)
    rw [hempty, List.length_nil]
    omega

/-- One `FEED` more: the buffered bytes and the chunk are the next frames and the beginning of another. -/
theorem Reassembled.step_feed (h : Reassembled cid s frames chunks moreHost moreDin k t recs m ck)
    (hframes : ∀ f ∈ frames, wellFormedFrame f) (hstream : chunks.flatten = frames.flatten) (hk : k < chunks.length)
    (hsize : chunks[k].length < 2 ^ 32) (hroom : s.bufCap.admits (ck.buf.length + chunks[k].length) = true) :
    ∃ t' recs' m' ck', step t = .next t' ∧
      Reassembled cid s frames chunks moreHost moreDin (k + 1) t' recs' m' ck' := by
  have hleft : (ck.buf ++ chunks[k]) ++ (chunks.drop (k + 1)).flatten = (frames.drop m).flatten := by
    have hall : (frames.take m).flatten ++ (ck.buf ++ (chunks.drop k).flatten) =
        (frames.take m).flatten ++ (frames.drop m).flatten := by
      rw [← List.append_assoc, ← h.delivered, ← List.flatten_append, ← List.flatten_append, List.take_append_drop,
        List.take_append_drop, hstream]
    rw [List.append_assoc, ← List.flatten_cons, ← List.drop_eq_getElem_cons hk]
    exact List.append_cancel_left hall
  obtain ⟨j, tail, hbytes, hkeep, hnext⟩ :=
    exists_cut_of_stream (fun f hf => hframes f (List.mem_of_mem_drop hf)) hleft
  have hcut : Cut (ck.buf ++ chunks[k]) ((frames.drop m).take j) tail :=
    ⟨hbytes, fun f hf => hframes f (List.mem_of_mem_drop (List.mem_of_mem_take hf)), .inl hkeep⟩
  have hhost := h.host
  have hdin := h.din
  rw [List.drop_eq_getElem_cons hk] at hhost hdin
  rw [List.flatten_cons, List.append_assoc] at hdin
  obtain ⟨hstep, hhost'⟩ := step_queued_feed hhost hdin hsize h.ctx h.phase (h.bufCap ▸ hroom) hcut
  refine ⟨_, recs ++ fedRecords cid ((frames.drop m).take j) tail, m + j, fedContext ck ((frames.drop m).take j) tail,
    hstep, ?_⟩
  have hrecs := fedRecords_keep cid ((frames.drop m).take j) hkeep
  exact {
    bufCap := h.bufCap
    host := hhost'
    din := rfl
    out := by rw [fedState_out, h.out, List.append_assoc]
    emitted := by
      rw [hrecs, List.filter_append, List.filter_append, h.emitted, filter_isFrame_map, List.take_add, List.map_append]
      simp [Record.isFrame]
    noCond := by
      rw [hrecs]
      refine List.forall_mem_append.mpr ⟨h.noCond, List.forall_mem_append.mpr ⟨?_, ?_⟩⟩
      · exact List.forall_mem_map.mpr fun _ _ => rfl
      · exact List.forall_mem_singleton.mpr rfl
    ctx := fedState_ctx_self h.ctx
    phase := (fedContext_phase ..).trans h.phase
    delivered := by
      rw [List.take_succ_eq_append_getElem hk, List.flatten_append, h.delivered, List.take_add, List.flatten_append,
        fedContext_buf, keptBytes_keep hkeep, List.append_assoc, List.append_assoc, ← hbytes]
      simp
    incomplete := by
      rw [fedContext_buf, keptBytes_keep hkeep]
      simpa [List.getElem?_drop] using hnext }

end

/-- Settles O43: after every number of `FEED`s the state is `Reassembled`, by induction on the number; the two clauses
are read off it. -/
theorem reassemblyUnderAnyChunking : Obligations.ReassemblyUnderAnyChunking := by
  intro cid s c frames chunks moreHost moreDin hctx hopen hempty hframes hstream hhost hdin hsize hroom
  have hreach : ∀ k ≤ chunks.length, ∃ t recs m ck, run k s = .next t ∧
      Reassembled cid s frames chunks moreHost moreDin k t recs m ck := by
    intro k hk
    induction k with
    | zero => exact ⟨s, [], 0, c, run_zero s, reassembled_zero hctx hopen hempty hframes hhost hdin⟩
    | succ k ih =>
      obtain ⟨t, recs, m, ck, hrun, hre⟩ := ih (by omega)
      have hfits := hroom k t ck chunks[k] hrun hre.ctx (List.getElem?_eq_getElem hk)
      obtain ⟨t', recs', m', ck', hstep, hre'⟩ :=
        hre.step_feed hframes hstream hk (hsize _ (List.getElem_mem hk)) hfits
      exact ⟨t', recs', m', ck', (run_succ hrun).trans hstep, hre'⟩
  constructor
  · obtain ⟨t, recs, m, ck, hrun, hre⟩ := hreach chunks.length (Nat.le_refl _)
    obtain ⟨hall, hbuf⟩ := hre.all_emitted hstream
    exact ⟨t, recs, ck, hrun, by simpa [feedWords] using hre.host, by simpa using hre.din, hre.out, hall ▸ hre.emitted,
      hall ▸ hre.raws, hre.noCond, hre.ctx, hre.phase, hbuf⟩
  · intro k hk
    obtain ⟨t, recs, m, ck, hrun, hre⟩ := hreach k hk
    exact ⟨t, recs, m, hrun, hre.out, hre.raws, hre.emitted_length_le, hre.lt_next_length⟩

/-! ## Resynchronisation -/

/-- The magic as bytes (00_scope.md R7). -/
theorem take_four_of_magic {b : Bytes} (hlen : 4 ≤ b.length) (h : be b 0 4 = Config.magic) :
    b.take 4 = [0x30#8, 0x31#8, 0x63#8, 0x64#8] := by
  have hwindow := bigEndian_be b 0 4 hlen
  rw [h, List.drop_zero] at hwindow
  exact hwindow.symm

/-- One to three bytes before a frame do not make a magic: its first byte occurs in it only once. -/
theorem magic_ne_of_shifted {bad f : Bytes} (hpos : 1 ≤ bad.length) (hshort : bad.length < 4) (hf : wellFormedFrame f) :
    be (bad ++ f) 0 4 ≠ Config.magic := by
  obtain ⟨hlen, hmagic, -⟩ := hf
  intro hshifted
  have hwhole := take_four_of_magic (by rw [List.length_append]; omega) hshifted
  have hfirst : f[0]? = some 0x30#8 := by
    have := congrArg (·[0]?) (take_four_of_magic (by omega) hmagic)
    simpa [List.getElem?_take] using this
  have hagain : [0x30#8, 0x31#8, 0x63#8, 0x64#8][bad.length]? = some 0x30#8 := by
    rw [← hwhole, List.getElem?_take_of_lt hshort, List.getElem?_append_right (Nat.le_refl _), Nat.sub_self, hfirst]
  interval_cases bad.length
  all_goals
    revert hagain
    decide

/-- Bytes that do not begin with the magic keep a frame behind them from being found. -/
theorem badHead_append_frame {bad f : Bytes} (hpos : 1 ≤ bad.length) (hbad : 4 ≤ bad.length → be bad 0 4 ≠ Config.magic)
    (hf : wellFormedFrame f) : badHead (bad ++ f) := by
  refine ⟨?_, ?_⟩
  · obtain ⟨hlen, -⟩ := hf
    rw [List.length_append]
    omega
  · by_cases hlong : 4 ≤ bad.length
    · rw [be_append_left _ _ _ _ (by omega)]
      exact hbad hlong
    · exact magic_ne_of_shifted hpos (not_le.mp hlong) hf

/-- A frame is shorter than LEN can say. -/
theorem wellFormedFrame_length_lt {f : Bytes} (hf : wellFormedFrame f) : f.length < 2 ^ 17 := by
  obtain ⟨-, -, hsize⟩ := hf
  have hfield : (be f 32 2).toNat < 65536 := (be f 32 2).isLt
  omega

/-- Two queued `FEED`s of a connection with an empty buffer, by the cut of the first chunk and of what it leaves
with the second. -/
theorem run_two_feeds {cid : Byte} {s : State} {c : Context} {k1 k2 tail1 tail2 moreDin : Bytes} {fs1 fs2 : List Bytes}
    {moreHost : List HostEvent} (hctx : s.ctx[cid.toNat]? = some c) (hopen : c.phase = .connected) (hempty : c.buf = [])
    (hhost : s.host = feedWords cid [k1, k2] ++ moreHost) (hdin : s.din = k1 ++ k2 ++ moreDin)
    (hsize1 : k1.length < 2 ^ 32) (hsize2 : k2.length < 2 ^ 32) (hroom1 : s.bufCap.admits k1.length = true)
    (hroom2 : s.bufCap.admits ((keptBytes tail1).length + k2.length) = true) (hcut1 : Cut k1 fs1 tail1)
    (hcut2 : Cut (keptBytes tail1 ++ k2) fs2 tail2) :
    ∃ t, run 2 s = .next t ∧ t.out = s.out ++ fedRecords cid fs1 tail1 ++ fedRecords cid fs2 tail2 := by
  obtain ⟨hstep1, hhost1⟩ := step_queued_feed hhost (hdin.trans (List.append_assoc ..)) hsize1 hctx hopen
    (by rw [hempty]; simpa using hroom1) (by rw [hempty]; exact hcut1)
  obtain ⟨hstep2, -⟩ := step_queued_feed hhost1 rfl hsize2 (fedState_ctx_self hctx)
    ((fedContext_phase ..).trans hopen) hroom2 hcut2
  exact ⟨_, by rw [run_succ_of_step hstep1, run_succ_of_step hstep2, run_zero], rfl⟩

/-- Settles O45: from 34 bytes on the bad chunk is a tail that is cleared, and the frame is found behind nothing; a
shorter one is a tail that is kept, and spoils the frame. -/
theorem resyncNeedsThirtyFourBytes : Obligations.ResyncNeedsThirtyFourBytes := by
  intro cid s c bad f moreHost moreDin hctx hopen hempty hf hpos hsize hbad hhost hdin
  have hflen := wellFormedFrame_length_lt hf
  have hfsize : f.length < 2 ^ 32 := by omega
  constructor
  · intro hlong hroom1 hroom2
    have hclear : badHead bad := ⟨hlong, hbad (by omega)⟩
    have hkept : keptBytes bad = [] := keptBytes_clear hclear
    have hnone : bufferInv [] := .inl (by decide)
    have hcut2 : Cut (keptBytes bad ++ f) [f] [] := by
      simpa [hkept] using (cut_of_finalTail (.inl hnone)).cons hf
    obtain ⟨t, hrun, hout⟩ := run_two_feeds hctx hopen hempty hhost hdin hsize hfsize hroom1
      (by simpa [hkept] using hroom2) (cut_of_finalTail (.inr hclear)) hcut2
    refine ⟨t, hrun, ?_⟩
    rw [hout, fedRecords_clear cid [] hclear, fedRecords_keep cid [f] hnone, condInfo_of_lt hsize]
    rfl
  · intro hshort hroom
    have hkeep : bufferInv bad := .inl hshort
    have hkept : keptBytes bad = bad := keptBytes_keep hkeep
    have hclear : badHead (bad ++ f) := badHead_append_frame hpos hbad hf
    have hcut2 : Cut (keptBytes bad ++ f) [] (bad ++ f) := by
      rw [hkept]
      exact cut_of_finalTail (.inr hclear)
    obtain ⟨t, hrun, hout⟩ := run_two_feeds hctx hopen hempty hhost hdin hsize hfsize
      (admits_mono hroom (Nat.le_add_right _ _)) (by rw [hkept]; exact hroom) (cut_of_finalTail (.inl hkeep)) hcut2
    refine ⟨t, hrun, ?_⟩
    rw [hout, fedRecords_keep cid [] hkeep, fedRecords_clear cid [] hclear, List.length_append,
      condInfo_of_lt (by omega)]
    rfl

end Sys2Proof.Machine

/-! PROOFS. The commands that read statistics and the accounting they read (44_stats.md): `NOP`, the global selectors,
the per-context selectors as one table of fields, the unlisted selectors, and what a `FEED` counts and identifies. -/

namespace Sys2Proof

/-! ## The unlisted selectors -/

/-- The selectors that R206 does not list select no field. -/
theorem decodeRdstat_unlisted (cid : Byte) {arg : BitVec 64}
    (h : 5 ≤ arg.toNat % 256 ∧ arg.toNat % 256 ≤ 0x0F ∨ 0x18 ≤ arg.toNat % 256) :
    decodeRdstat cid arg = .error (.badOperand opRdstat cid) := by
  have hsel : (bits arg 0 8).toNat = arg.toNat % 256 := by simp [bits_toNat]
  unfold decodeRdstat
  rw [hsel]
  split
  case h_14 => rfl
  all_goals omega

/-- The words whose selector R206 does not list are no instruction. -/
theorem decode_unlistedSelector {cw : BitVec 80} (hop : cw.toNat / 2 ^ 72 = 0x07)
    (hsel : 5 ≤ cw.toNat % 256 ∧ cw.toNat % 256 ≤ 0x0F ∨ 0x18 ≤ cw.toNat % 256) :
    decode (.cmd80 cw) = .error (.badOperand opRdstat (BitVec.ofNat 8 (cw.toNat / 2 ^ 64 % 256))) := by
  have hlow : (bits cw 0 64).toNat % 256 = cw.toNat % 256 := by
    rw [bits_toNat]
    omega
  rw [congrArg InputWord.cmd80 (eq_commandWord_of_op (op := opRdstat) hop), decode_rdstat,
    decodeRdstat_unlisted _ (hlow.symm ▸ hsel)]

end Sys2Proof

namespace Sys2Proof.Machine

/-- Settles O13: the word does not decode, so the step is the rejection `BadOperand`. -/
theorem unlistedSelectorRejected : Obligations.UnlistedSelectorRejected := by
  intro s rest cw hhost hop hsel
  have hstep : step s = reject s opRdstat _ .badOperand := step_word_error hhost (decode_unlistedSelector hop hsel)
  rw [hstep, reject_eq, hhost]
  rfl

/-! ## NOP and the global selectors -/

/-- Settles O17: `NOP` is its response and nothing before it. -/
theorem nopResponds : Obligations.NopResponds :=
  fun cid s => respond_eq s [] opNop cid .ok 0#64

/-- Reading a value of `G` is its response, whatever the `cid` (R205). -/
theorem readGlobal_eq (cid : Byte) (val : BitVec 64) (s : State) : readGlobal cid val s =
    .next { s with host := s.host.tail, out := s.out ++ [.rsp opRdstat cid .ok val] } :=
  respond_eq ..

/-- Settles O23: each of the five selectors is `readGlobal` of its own field. -/
theorem globalSelectorsReadTheirField : Obligations.GlobalSelectorsReadTheirField := fun cid s =>
  ⟨readGlobal_eq cid s.g.startTime s, readGlobal_eq cid s.g.totalPkts s, readGlobal_eq cid s.g.totalBytes s,
    readGlobal_eq cid s.g.iframeCnt s, readGlobal_eq cid s.g.pframeCnt s⟩

/-! ## The per-context selectors -/

section
variable {cid : Byte} {s : State}

theorem readField_some (val : Context → BitVec 64) {c : Context} (hctx : s.ctx[cid.toNat]? = some c) :
    readField cid val s =
      .next { s with host := s.host.tail, out := s.out ++ [.rsp opRdstat cid .ok (val c)] } :=
  withContext_some _ hctx

theorem readField_none (val : Context → BitVec 64) (hrange : s.ctx.length ≤ cid.toNat) :
    readField cid val s =
      .next { s with host := s.host.tail, out := s.out ++ [.rsp opRdstat cid .badOperand 0#64] } :=
  withContext_none _ hrange

end

/-- The eight per-context selectors, each with the value it reads from its context (R206). -/
def contextReads (cid : Byte) : List (Instr × (Context → BitVec 64)) :=
  [(.rdstatConnStatus cid, connStatus),
   (.rdstatBufLen cid, fun c => BitVec.ofNat 64 c.buf.length),
   (.rdstatPktCnt cid, fun c => c.pktCnt),
   (.rdstatByteCnt cid, fun c => c.byteCnt),
   (.rdstatDevId cid, fun c => c.devIdRaw.setWidth 64),
   (.rdstatChannel cid, fun c => c.chan.setWidth 64),
   (.rdstatAddrKey cid, fun c => c.addrKey),
   (.rdstatConnTs cid, fun c => c.connTs)]

/-- A claim about the eight selectors is one about the table's rows. -/
theorem forall_contextSelector {cid : Byte} {P : Instr → Prop} (h : ∀ p ∈ contextReads cid, P p.1) :
    ∀ i ∈ [Instr.rdstatConnStatus cid, .rdstatBufLen cid, .rdstatPktCnt cid, .rdstatByteCnt cid,
      .rdstatDevId cid, .rdstatChannel cid, .rdstatAddrKey cid, .rdstatConnTs cid], P i :=
  List.forall_mem_map (f := Prod.fst).mpr h

/-- Each row of the table is the meaning of its selector. -/
theorem exec_contextRead (cid : Byte) (s : State) : ∀ p ∈ contextReads cid, exec p.1 s = readField cid p.2 s := by
  simp only [contextReads, List.forall_mem_cons]
  exact ⟨rfl, rfl, rfl, rfl, rfl, rfl, rfl, rfl, fun _ h => absurd h List.not_mem_nil⟩

/-- The status word in plain arithmetic: the phase code in the two low bits, `id_set` above them (R285). -/
theorem connStatus_eq (c : Context) :
    connStatus c = BitVec.ofNat 64 ((phaseCode c.phase).toNat + if c.idSet then 4 else 0) := by
  have hflag : (BitVec.ofBool c.idSet).toNat * 2 ^ 2 = if c.idSet then 4 else 0 := by
    cases c.idSet <;> rfl
  rw [connStatus, ← BitVec.ofNat_toNat, toNat_append_eq, hflag, Nat.add_comm]

/-- Settles O24: each selector's row read at the context; the two identity fields are zero-extended, and the status
word is `connStatus_eq`. -/
theorem contextSelectorsReadTheirField : Obligations.ContextSelectorsReadTheirField := by
  intro cid s c hctx answer
  have hread (val : Context → BitVec 64) {v : BitVec 64} (hval : val c = v) : readField cid val s = answer v := by
    rw [← hval]
    exact readField_some val hctx
  exact ⟨hread _ (connStatus_eq c), hread _ rfl, hread _ rfl, hread _ rfl, hread _ (BitVec.ofNat_toNat ..).symm,
    hread _ (BitVec.ofNat_toNat ..).symm, hread _ rfl, hread _ rfl⟩

/-- Settles O25: every row of the table is `readField`, which rejects a `cid` out of range. -/
theorem contextSelectorsRejectBadCid : Obligations.ContextSelectorsRejectBadCid := by
  intro cid s hrange
  refine forall_contextSelector fun p hp => ?_
  rw [exec_contextRead cid s p hp]
  exact readField_none p.2 hrange

/-! ## The per-context selectors between commands -/

section
variable {c : Context}

/-- Between commands a context is closed or connected, and a closed one has no identity (R285; 10_state.md R32). -/
theorem connStatus_of_contextInv (h : contextInv c) :
    connStatus c = 0#64 ∨ connStatus c = 1#64 ∨ connStatus c = 5#64 := by
  obtain rfl | ⟨hopen, -, -⟩ := h
  · exact .inl rfl
  · rw [connStatus_eq, hopen]
    cases c.idSet with
    | false => exact .inr (.inl rfl)
    | true => exact .inr (.inr rfl)

theorem buf_length_le_of_contextInv (h : contextInv c) : c.buf.length ≤ 65568 := by
  obtain rfl | ⟨-, hbuf, -⟩ := h
  · exact Nat.zero_le _
  · exact bufferInv_length_le hbuf

theorem eq_reset_of_closed (h : contextInv c) (hclosed : c.phase = .closed) : c = Context.reset := by
  obtain hreset | ⟨hopen, -, -⟩ := h
  · exact hreset
  · rw [hopen] at hclosed
    cases hclosed

end

/-- Every field of a context reads 0 at its reset value. -/
theorem contextRead_reset (cid : Byte) : ∀ p ∈ contextReads cid, p.2 Context.reset = 0#64 := by
  simp only [contextReads, List.forall_mem_cons]
  exact ⟨rfl, rfl, rfl, rfl, rfl, rfl, rfl, rfl, fun _ h => absurd h List.not_mem_nil⟩

/-- Settles O26: the invariant bounds the status word and the buffer, and makes a closed slot the reset context. -/
theorem selectorsBetweenCommands : Obligations.SelectorsBetweenCommands := by
  intro cid s c hs hctx answer
  have hinv : contextInv c := contextInv_of_inv hs hctx
  refine ⟨⟨connStatus c, connStatus_of_contextInv hinv, readField_some connStatus hctx⟩,
    ⟨c.buf.length, buf_length_le_of_contextInv hinv, readField_some _ hctx⟩, fun hclosed => ?_⟩
  obtain rfl := eq_reset_of_closed hinv hclosed
  refine forall_contextSelector fun p hp => ?_
  rw [exec_contextRead cid s p hp, ← contextRead_reset cid p hp]
  exact readField_some p.2 hctx

/-! ## What counting frames adds up to -/

section
variable (n : Counter) (f : Bytes) (fs : List Bytes)

/-- A packet counter counts the first frame before the others (R200, R202). -/
theorem add_length_cons :
    n + BitVec.ofNat 64 (f :: fs).length = n + 1#64 + BitVec.ofNat 64 fs.length := by
  rw [List.length_cons, Nat.add_comm fs.length, BitVec.ofNat_add, BitVec.add_assoc]

/-- A byte counter counts the first frame before the others (R200, R202). -/
theorem add_lengths_cons : n + BitVec.ofNat 64 ((f :: fs).map List.length).sum =
    n + BitVec.ofNat 64 f.length + BitVec.ofNat 64 (fs.map List.length).sum := by
  rw [List.map_cons, List.sum_cons, BitVec.ofNat_add, BitVec.add_assoc]

/-- A counter of one data type counts the first frame, if it is of the type, before the others (R202). -/
theorem add_countType_cons (k : BitVec 4) :
    n + BitVec.ofNat 64 (countType k (f :: fs)) =
      (if (headerFields f).dataType = k then n + 1#64 else n) + BitVec.ofNat 64 (countType k fs) := by
  rw [countType, List.countP_cons, ← countType, Nat.add_comm, BitVec.ofNat_add, ← BitVec.add_assoc]
  by_cases hk : (headerFields f).dataType = k <;> simp [hk]

end

section
variable (fs : List Bytes)

theorem countedContext_pktCnt (c : Context) : (countedContext c fs).pktCnt = c.pktCnt + BitVec.ofNat 64 fs.length := by
  induction fs generalizing c with
  | nil => simp
  | cons f fs ih => rw [countedContext_cons, ih, onFrame_pktCnt, add_length_cons]

theorem countedContext_byteCnt (c : Context) :
    (countedContext c fs).byteCnt = c.byteCnt + BitVec.ofNat 64 (fs.map List.length).sum := by
  induction fs generalizing c with
  | nil => simp
  | cons f fs ih => rw [countedContext_cons, ih, onFrame_byteCnt, add_lengths_cons]

theorem countedGlobal_totalPkts (g : GlobalStats) :
    (countedGlobal g fs).totalPkts = g.totalPkts + BitVec.ofNat 64 fs.length := by
  induction fs generalizing g with
  | nil => simp
  | cons f fs ih => rw [countedGlobal_cons, ih, recordFrame_totalPkts, add_length_cons]

theorem countedGlobal_totalBytes (g : GlobalStats) :
    (countedGlobal g fs).totalBytes = g.totalBytes + BitVec.ofNat 64 (fs.map List.length).sum := by
  induction fs generalizing g with
  | nil => simp
  | cons f fs ih => rw [countedGlobal_cons, ih, recordFrame_totalBytes, add_lengths_cons]

theorem countedGlobal_iframeCnt (g : GlobalStats) :
    (countedGlobal g fs).iframeCnt = g.iframeCnt + BitVec.ofNat 64 (countType 0#4 fs) := by
  induction fs generalizing g with
  | nil => simp [countType]
  | cons f fs ih => rw [countedGlobal_cons, ih, recordFrame_iframeCnt, add_countType_cons]

theorem countedGlobal_pframeCnt (g : GlobalStats) :
    (countedGlobal g fs).pframeCnt = g.pframeCnt + BitVec.ofNat 64 (countType 1#4 fs) := by
  induction fs generalizing g with
  | nil => simp [countType]
  | cons f fs ih => rw [countedGlobal_cons, ih, recordFrame_pframeCnt, add_countType_cons]

/-- Once set, the identity outlasts every frame counted after it (R201). -/
theorem countedContext_identity {c : Context} (hset : c.idSet = true) :
    (countedContext c fs).idSet = true ∧ (countedContext c fs).devIdRaw = c.devIdRaw ∧
      (countedContext c fs).chan = c.chan := by
  induction fs generalizing c with
  | nil => exact ⟨hset, rfl, rfl⟩
  | cons f fs ih =>
    obtain ⟨hflag, hdev, hchan⟩ := ih (onFrame_idSet (be f 12 6) (be f 18 1) f.length c)
    exact ⟨hflag, by simpa [hset] using hdev, by simpa [hset] using hchan⟩

/-- The first frame counted sets an identity that was not set, and no later one changes it (R201). -/
theorem countedContext_cons_identity {c : Context} (f : Bytes) (hunset : c.idSet = false) :
    (countedContext c (f :: fs)).idSet = true ∧ (countedContext c (f :: fs)).devIdRaw = be f 12 6 ∧
      (countedContext c (f :: fs)).chan = be f 18 1 := by
  obtain ⟨hflag, hdev, hchan⟩ := countedContext_identity fs (onFrame_idSet (be f 12 6) (be f 18 1) f.length c)
  exact ⟨hflag, by simpa [hunset] using hdev, by simpa [hunset] using hchan⟩

end

/-! ## The statements about a `FEED`'s accounting -/

/-- A carried out `FEED` counts exactly the frames it emits, in its own context and in `G`. -/
theorem feed_counts_emitted {cid : Byte} {len : BitVec 32} {s t : State} {c c' : Context} {recs : List Record}
    (hdin : len.toNat ≤ s.din.length) (hctx : s.ctx[cid.toNat]? = some c) (hopen : c.phase = .connected)
    (hroom : s.bufCap.admits (c.buf.length + len.toNat) = true) (hexec : exec (.feed cid len) s = .next t)
    (hout : t.out = s.out ++ recs) (hctx' : t.ctx[cid.toNat]? = some c') :
    ∃ tail, c' = fedContext c (rawsOf recs) tail ∧ t.g = countedGlobal s.g (rawsOf recs) := by
  obtain ⟨fs, tail, -, hfed⟩ := FeedReady.exec_cases
    ⟨(List.take_append_drop len.toNat s.din).symm, List.length_take_of_le hdin, hctx, hopen, hroom⟩
  cases hfed.symm.trans hexec
  obtain rfl : fedRecords cid fs tail = recs := List.append_cancel_left hout
  rw [fedState_ctx_self hctx, Option.some.injEq] at hctx'
  rw [rawsOf_fedRecords]
  exact ⟨tail, hctx'.symm, rfl⟩

/-- Settles O39: what counting the emitted frames adds up to, counter by counter. -/
theorem feedCountsEmittedFrames : Obligations.FeedCountsEmittedFrames := by
  intro cid len s t c c' recs hdin hctx hopen hroom hexec hout hctx'
  obtain ⟨tail, rfl, hg⟩ := feed_counts_emitted hdin hctx hopen hroom hexec hout hctx'
  rw [hg]
  exact ⟨countedContext_pktCnt _ c, countedContext_byteCnt _ c, countedGlobal_totalPkts _ s.g,
    countedGlobal_totalBytes _ s.g, countedGlobal_iframeCnt _ s.g, countedGlobal_pframeCnt _ s.g,
    countedGlobal_startTime s.g _⟩

/-- Settles O40: the emitted frames are counted, and of these only the first finds the identity unset, if any does. -/
theorem identityIsSetOnce : Obligations.IdentityIsSetOnce := by
  intro cid len s t c c' recs hdin hctx hopen hroom hexec hout hctx'
  obtain ⟨tail, rfl, -⟩ := feed_counts_emitted hdin hctx hopen hroom hexec hout hctx'
  refine ⟨fun hset => countedContext_identity _ hset, fun hunset hnone => ?_, fun f fs hunset hsome => ?_⟩
  · rw [hnone]
    exact ⟨hunset, rfl, rfl⟩
  · rw [hsome]
    exact countedContext_cons_identity fs f hunset

end Sys2Proof.Machine

/-! PROOFS. What stands beside the commands that are carried out (60_exceptions.md): the idle step and the time event
(R240), the reserved operation codes (R228), and that the `FEED`s of two connections commute (R238). -/

namespace Sys2Proof

/-- The operation codes from 0x08 on are reserved (30_encoding.md R108 (a)). -/
theorem decode_reservedOp {op : Byte} (cid : Byte) (arg : BitVec 64) (h : 8 ≤ op.toNat) :
    decode (.cmd80 (commandWord op cid arg)) = .error (.illegalOp op cid) := by
  unfold decode decodeCommand
  simp only [bits_commandWord_op, bits_commandWord_cid]
  split
  case h_9 => rfl
  all_goals omega

/-- A command word whose top byte is at least 8 is no instruction; the error carries that byte and the `cid`. -/
theorem decode_reservedWord {cw : BitVec 80} (h : 8 ≤ cw.toNat / 2 ^ 72) :
    decode (.cmd80 cw) = .error
      (.illegalOp (BitVec.ofNat 8 (cw.toNat / 2 ^ 72)) (BitVec.ofNat 8 (cw.toNat / 2 ^ 64 % 256))) := by
  have hop : cw.toNat / 2 ^ 72 = (BitVec.ofNat 8 (cw.toNat / 2 ^ 72)).toNat := by
    have := cw.isLt
    rw [BitVec.toNat_ofNat]
    omega
  exact (congrArg (decode <| .cmd80 ·) (eq_commandWord_of_op hop)).trans (decode_reservedOp _ _ (hop ▸ h))

end Sys2Proof

namespace Sys2Proof.Machine

/-! ## The idle step, the time event and the reserved codes -/

/-- Settles O15: the equations of a step with an empty queue and of a step on a time event. -/
theorem idleAndTimeEvents : Obligations.IdleAndTimeEvents := by
  refine ⟨fun _ => step_nil, fun s v rest hhost => ?_⟩
  rw [step_time hhost, setTime, retire, hhost]
  rfl

/-- Settles O11: the word does not decode, so the step is the rejection `IllegalOp`. -/
theorem reservedOpcodeRejected : Obligations.ReservedOpcodeRejected := by
  intro s rest cw hhost hop
  have hstep : step s = reject s _ _ .illegalOp := step_word_error hhost (decode_reservedWord hop)
  rw [hstep, reject_eq, hhost]
  rfl

/-! ## Counting frames in `G` does not depend on their order -/

theorem recordFrame_comm (d e : BitVec 4) (m n : Nat) (g : GlobalStats) :
    recordFrame d m (recordFrame e n g) = recordFrame e n (recordFrame d m g) := by
  have hcount (k : BitVec 4) (x : Counter) :
      (if d = k then (if e = k then x + 1#64 else x) + 1#64 else if e = k then x + 1#64 else x) =
      if e = k then (if d = k then x + 1#64 else x) + 1#64 else if d = k then x + 1#64 else x := by
    split <;> split <;> rfl
  simp only [recordFrame, GlobalStats.mk.injEq, true_and]
  exact ⟨add_right_comm .., hcount 0#4 g.iframeCnt, hcount 1#4 g.pframeCnt⟩

theorem countedGlobal_comm (g : GlobalStats) (fs gs : List Bytes) :
    countedGlobal (countedGlobal g fs) gs = countedGlobal (countedGlobal g gs) fs := by
  rw [← countedGlobal_append, ← countedGlobal_append]
  exact List.perm_append_comm.foldl_eq' (fun _ _ _ _ g => recordFrame_comm _ _ _ _ g) g

/-! ## What a `FEED` changes, whatever the other connections hold -/

/-- `FeedOutcome cap chunk own upd fs`: with capacity `cap`, a `FEED` of `chunk` on a connection whose context is `own`
(absent where the `cid` names none) updates that context by `upd` and counts the frames `fs` in `G`. -/
inductive FeedOutcome (cap : Capacity) (chunk : Bytes) :
    Option Context → (Context → Context) → List Bytes → Prop where
  /-- The `cid` names no context, or one that is not connected, or the chunk does not fit (R225, R226, R229). -/
  | rejected {own : Option Context}
      (hrejects : ∀ c, own = some c → c.phase = .connected → cap.admits (c.buf.length + chunk.length) = false) :
      FeedOutcome cap chunk own id []
  /-- The frames of the buffer's cut are counted, and its tail stays as far as it is kept (43_framer.md R171). -/
  | fed {c : Context} {fs : List Bytes} {tail : Bytes} (hopen : c.phase = .connected)
      (hroom : cap.admits (c.buf.length + chunk.length) = true) (hcut : Cut (c.buf ++ chunk) fs tail) :
      FeedOutcome cap chunk (some c) (fun _ => fedContext c fs tail) fs

theorem exists_feedOutcome (cap : Capacity) (chunk : Bytes) (own : Option Context) :
    ∃ upd fs, FeedOutcome cap chunk own upd fs := by
  by_cases hready : ∃ c, own = some c ∧ c.phase = .connected ∧ cap.admits (c.buf.length + chunk.length) = true
  · obtain ⟨c, rfl, hopen, hroom⟩ := hready
    obtain ⟨fs, tail, hbytes, hfs, hfinal⟩ := exists_cut (c.buf ++ chunk)
    exact ⟨_, fs, .fed hopen hroom ⟨hbytes, hfs, hfinal⟩⟩
  · refine ⟨id, [], .rejected fun c hown hopen => Bool.eq_false_iff.mpr fun hroom => ?_⟩
    exact hready ⟨c, hown, hopen, hroom⟩

/-- From `s` to `t`, contexts, statistics, data-in and capacity are as after a `FEED` on `cid` that updates its own
context by `upd`, counts the frames `fs` and leaves `rest` on data-in. -/
structure FeedChange (cid : Byte) (upd : Context → Context) (fs : List Bytes) (rest : Bytes) (s t : State) : Prop where
  ctx : t.ctx = s.ctx.modify cid.toNat upd
  g : t.g = countedGlobal s.g fs
  din : t.din = rest
  bufCap : t.bufCap = s.bufCap

section
variable {cid : Byte} {len : BitVec 32} {s : State} {chunk rest : Bytes}

/-- A `FEED` that is not ready takes its bytes and is rejected, by one of the three statuses (R231). -/
theorem exec_feed_rejected (hdin : s.din = chunk ++ rest) (hlen : chunk.length = len.toNat)
    (hrejects : ∀ c, s.ctx[cid.toNat]? = some c → c.phase = .connected →
      s.bufCap.admits (c.buf.length + chunk.length) = false) :
    ∃ recs, exec (.feed cid len) s = .next (emit recs (retire { s with din := rest })) := by
  obtain ⟨hnone, hother, hfull⟩ := feedRejectionsDropTheChunk cid len s chunk rest hdin hlen
  cases hctx : s.ctx[cid.toNat]? with
  | none => exact ⟨_, hnone (List.getElem?_eq_none_iff.mp hctx)⟩
  | some c =>
    by_cases hopen : c.phase = .connected
    · exact ⟨_, hfull c hctx hopen (hlen ▸ hrejects c hctx hopen)⟩
    · exact ⟨_, hother c hctx hopen⟩

/-- A `FEED` does what its outcome says, which its own context, the capacity and the chunk determine. -/
theorem FeedOutcome.change {upd : Context → Context} {fs : List Bytes} {t : State} {own : Option Context}
    (h : FeedOutcome s.bufCap chunk own upd fs) (hown : s.ctx[cid.toNat]? = own) (hdin : s.din = chunk ++ rest)
    (hlen : chunk.length = len.toNat) (hexec : exec (.feed cid len) s = .next t) :
    FeedChange cid upd fs rest s t := by
  cases h with
  | rejected hrejects =>
    obtain ⟨recs, hrejected⟩ := exec_feed_rejected hdin hlen (hown ▸ hrejects)
    cases hrejected.symm.trans hexec
    exact ⟨(List.modify_id _ _).symm, rfl, rfl, rfl⟩
  | fed hopen hroom hcut =>
    have hready : FeedReady cid len s chunk rest _ := ⟨hdin, hlen, hown, hopen, hlen ▸ hroom⟩
    cases (hready.exec_cut hcut).symm.trans hexec
    refine ⟨?_, rfl, rfl, rfl⟩
    rw [List.modify_eq_set_getElem?, hown]
    rfl

end

/-- Two `FEED`s in a row on different connections: the second finds its own context and the capacity as they were
before the first, so its outcome is that from the first state. -/
theorem feed_feed_change {a b : Byte} {la lb : BitVec 32} {s t u : State} {ka kb rest : Bytes}
    {ua ub : Context → Context} {fa fb : List Bytes} (hne : a ≠ b) (hka : ka.length = la.toNat)
    (hkb : kb.length = lb.toNat) (hdin : s.din = ka ++ (kb ++ rest))
    (ha : FeedOutcome s.bufCap ka s.ctx[a.toNat]? ua fa) (hb : FeedOutcome s.bufCap kb s.ctx[b.toNat]? ub fb)
    (hfirst : exec (.feed a la) s = .next t) (hsecond : exec (.feed b lb) t = .next u) :
    u.ctx = (s.ctx.modify a.toNat ua).modify b.toNat ub ∧ u.g = countedGlobal (countedGlobal s.g fa) fb ∧
    u.din = rest := by
  have hchange : FeedChange a ua fa (kb ++ rest) s t := ha.change rfl hdin hka hfirst
  have hown : t.ctx[b.toNat]? = s.ctx[b.toNat]? := by
    rw [hchange.ctx, List.getElem?_modify_ne _ _ (mt BitVec.eq_of_toNat_eq hne)]
  rw [← hchange.bufCap] at hb
  obtain ⟨hctx, hg, hrest, -⟩ := hb.change hown hchange.din hkb hsecond
  exact ⟨hchange.ctx ▸ hctx, hchange.g ▸ hg, hrest⟩

/-- Settles O53: each order updates the two contexts, at different places, and counts the frames of both. -/
theorem feedsOfTwoConnectionsCommute : Obligations.FeedsOfTwoConnectionsCommute := by
  intro a b la lb s ta tab tb tba ka kb rest hne hka hkb ha hab hb hba
  obtain ⟨ua, fa, houta⟩ := exists_feedOutcome s.bufCap ka s.ctx[a.toNat]?
  obtain ⟨ub, fb, houtb⟩ := exists_feedOutcome s.bufCap kb s.ctx[b.toNat]?
  obtain ⟨hctx, hg, hdin⟩ :=
    feed_feed_change (s := { s with din := ka ++ (kb ++ rest) }) hne hka hkb rfl houta houtb ha hab
  obtain ⟨hctx', hg', hdin'⟩ :=
    feed_feed_change (s := { s with din := kb ++ (ka ++ rest) }) hne.symm hkb hka rfl houtb houta hb hba
  rw [hctx, hctx', hg, hg', hdin, hdin']
  exact ⟨List.modify_modify_ne ua ub s.ctx (mt BitVec.eq_of_toNat_eq hne), countedGlobal_comm s.g fa fb, rfl⟩

end Sys2Proof.Machine
